-- ==== Sys2Proof/Word.lean ====
section
/-! DEFINITION. The widths of the CORE's quantities (spec/00_scope.md rules R4 and R8, spec/10_state.md rule R27).
All of them are unsigned. -/

namespace Sys2Proof

/-- A general register, a timer or a memory cell: 8 bits (R4 `REG_W`, `TIMER_W`). -/
abbrev Byte := BitVec 8

/-- An instruction word, `PC`, `I` or a stack slot: 16 bits (R4 `PC_W`, `I_W`, `STACK_W`). -/
abbrev Word := BitVec 16

/-- A register index, a key code, a sprite length or a minor opcode: 4 bits (R61). -/
abbrev Nibble := BitVec 4

/-- The address field `nnn` of an instruction word: 12 bits (R61). -/
abbrev Addr := BitVec 12

end Sys2Proof
end

