-- ==== Sys2Proof/Machine/Flags.lean ====
section
/-! DEFINITION. The flags written to `VF` (spec/10_state.md rule R12, spec/41_alu.md rule R120): each is a function of the
operands before the operation, and each is the byte 0 or 1. -/

namespace Sys2Proof.Machine

/-- A flag is the 8-bit value 0 or 1 (R12). -/
def flagByte (b : Bool) : Byte := if b then 1 else 0

/-- ADD Vx,Vy: 1 exactly when `a + b > 255` (R120, R128). -/
def carryFlag (a b : Byte) : Byte := flagByte (decide (255 < a.toNat + b.toNat))

/-- SUB and SUBN: 1 exactly when the minuend `a` is greater than or equal to the subtrahend `b` (R120, R129, R131). -/
def noBorrowFlag (a b : Byte) : Byte := flagByte (decide (b.toNat ≤ a.toNat))

/-- SHR: the old bit 0 (R130). -/
def lowBitFlag (a : Byte) : Byte := a &&& 1

/-- SHL: the old bit 7 (R132). -/
def highBitFlag (a : Byte) : Byte := a >>> 7

/-- ADD I: 1 exactly when `I + V[x] > 0x0FFF`, not the 16-bit carry (R141). -/
def indexFlag (i : Word) (b : Byte) : Byte := flagByte (decide (0x0FFF < i.toNat + b.toNat))

end Sys2Proof.Machine
end

