-- ==== Sys2Proof/Syntax.lean ====
section
/-! DEFINITION. The 35 instruction kinds of spec/30_encoding.md rule R66, in the table's order, each with the operand
fields of its format (R62, R63). -/

namespace Sys2Proof

/-- An instruction: one constructor for each row of spec/opcode_table.json. -/
inductive Instr where
  /-- SYS addr (0nnn, except 00E0 and 00EE): R100. -/
  | sys (nnn : Addr)
  /-- CLS (00E0): R150. -/
  | cls
  /-- RET (00EE): R101. -/
  | ret
  /-- JP addr (1nnn): R102. -/
  | jp (nnn : Addr)
  /-- CALL addr (2nnn): R103. -/
  | call (nnn : Addr)
  /-- SE Vx, byte (3xkk): R104. -/
  | seByte (x : Nibble) (kk : Byte)
  /-- SNE Vx, byte (4xkk): R105. -/
  | sneByte (x : Nibble) (kk : Byte)
  /-- SE Vx, Vy (5xy0): R106. -/
  | seReg (x y : Nibble)
  /-- LD Vx, byte (6xkk): R122. -/
  | ldByte (x : Nibble) (kk : Byte)
  /-- ADD Vx, byte (7xkk): R123. -/
  | addByte (x : Nibble) (kk : Byte)
  /-- LD Vx, Vy (8xy0): R124. -/
  | ldReg (x y : Nibble)
  /-- OR Vx, Vy (8xy1): R125. -/
  | orReg (x y : Nibble)
  /-- AND Vx, Vy (8xy2): R126. -/
  | andReg (x y : Nibble)
  /-- XOR Vx, Vy (8xy3): R127. -/
  | xorReg (x y : Nibble)
  /-- ADD Vx, Vy (8xy4): R128. -/
  | addReg (x y : Nibble)
  /-- SUB Vx, Vy (8xy5): R129. -/
  | sub (x y : Nibble)
  /-- SHR Vx (8xy6), `y` encoded and ignored: R130, R73. -/
  | shr (x y : Nibble)
  /-- SUBN Vx, Vy (8xy7): R131. -/
  | subn (x y : Nibble)
  /-- SHL Vx (8xyE), `y` encoded and ignored: R132, R73. -/
  | shl (x y : Nibble)
  /-- SNE Vx, Vy (9xy0): R107. -/
  | sneReg (x y : Nibble)
  /-- LD I, addr (Annn): R140. -/
  | ldI (nnn : Addr)
  /-- JP V0, addr (Bnnn): R108. -/
  | jpV0 (nnn : Addr)
  /-- RND Vx, byte (Cxkk): R133. -/
  | rnd (x : Nibble) (kk : Byte)
  /-- DRW Vx, Vy, n (Dxyn): R151. -/
  | drw (x y n : Nibble)
  /-- SKP Vx (Ex9E): R163. -/
  | skp (x : Nibble)
  /-- SKNP Vx (ExA1): R164. -/
  | sknp (x : Nibble)
  /-- LD Vx, DT (Fx07): R160. -/
  | ldVxDT (x : Nibble)
  /-- LD Vx, K (Fx0A): R165. -/
  | ldVxK (x : Nibble)
  /-- LD DT, Vx (Fx15): R161. -/
  | ldDTVx (x : Nibble)
  /-- LD ST, Vx (Fx18): R162. -/
  | ldSTVx (x : Nibble)
  /-- ADD I, Vx (Fx1E): R141. -/
  | addI (x : Nibble)
  /-- LD F, Vx (Fx29): R142. -/
  | ldF (x : Nibble)
  /-- LD B, Vx (Fx33): R143. -/
  | ldB (x : Nibble)
  /-- LD [I], Vx (Fx55): R144. -/
  | ldStore (x : Nibble)
  /-- LD Vx, [I] (Fx65): R145. -/
  | ldLoad (x : Nibble)
  deriving DecidableEq, Repr

end Sys2Proof
end

