-- ==== Sys2Proof/Decode.lean ====
section
/-! DEFINITION. Operand fields, the opcode map, the decoder and the encoder (spec/30_encoding.md). Every `template` value
rests on general knowledge, as the spec itself marks it (R66, decision D7): UNVERIFIED, notes/assumptions/11.md. -/

namespace Sys2Proof

/-- R61: the major opcode, bits 15 to 12. -/
def fieldOp (raw : Word) : Nibble := raw.extractLsb' 12 4

/-- R63: `x = (raw >> 8) & 0xF`. -/
def fieldX (raw : Word) : Nibble := raw.extractLsb' 8 4

/-- R63: `y = (raw >> 4) & 0xF`. -/
def fieldY (raw : Word) : Nibble := raw.extractLsb' 4 4

/-- R63: `n = raw & 0x000F`. -/
def fieldN (raw : Word) : Nibble := raw.extractLsb' 0 4

/-- R63: `kk = raw & 0x00FF`. -/
def fieldKK (raw : Word) : Byte := raw.extractLsb' 0 8

/-- R63: `nnn = raw & 0x0FFF`. -/
def fieldNNN (raw : Word) : Addr := raw.extractLsb' 0 12

/-- One row of the opcode map (R66): the bits compared, the value they must have, the words the row leaves to other rows
(R65), and the instruction with its operands taken from the word (R63). -/
structure OpcodeRow where
  mask : Word
  template : Word
  excludes : List Word
  build : Word → Instr

/-- R64: "the kind matches if this equals the kind's fixed template value", less the exclusion of R65. -/
def OpcodeRow.matches (row : OpcodeRow) (raw : Word) : Bool :=
  raw &&& row.mask == row.template && !row.excludes.contains raw

/-- Format NONE (R62). -/
def rowNone (template : Word) (i : Instr) : OpcodeRow := ⟨0xFFFF, template, [], fun _ => i⟩

/-- Format NNN (R62). -/
def rowNNN (template : Word) (mk : Addr → Instr) : OpcodeRow := ⟨0xF000, template, [], fun raw => mk (fieldNNN raw)⟩

/-- Format XKK (R62). -/
def rowXKK (template : Word) (mk : Nibble → Byte → Instr) : OpcodeRow :=
  ⟨0xF000, template, [], fun raw => mk (fieldX raw) (fieldKK raw)⟩

/-- Format XY (R62). -/
def rowXY (template : Word) (mk : Nibble → Nibble → Instr) : OpcodeRow :=
  ⟨0xF00F, template, [], fun raw => mk (fieldX raw) (fieldY raw)⟩

/-- Format XYN (R62). -/
def rowXYN (template : Word) (mk : Nibble → Nibble → Nibble → Instr) : OpcodeRow :=
  ⟨0xF000, template, [], fun raw => mk (fieldX raw) (fieldY raw) (fieldN raw)⟩

/-- Format X (R62). -/
def rowX (template : Word) (mk : Nibble → Instr) : OpcodeRow := ⟨0xF0FF, template, [], fun raw => mk (fieldX raw)⟩

/-- Rows 1 to 10 of R66; SYS carries the exclusion of R65. -/
def opcodeMapLow : List OpcodeRow :=
  [ { rowNNN 0x0000 .sys with excludes := [0x00E0, 0x00EE] },
    rowNone 0x00E0 .cls, rowNone 0x00EE .ret,
    rowNNN 0x1000 .jp, rowNNN 0x2000 .call,
    rowXKK 0x3000 .seByte, rowXKK 0x4000 .sneByte, rowXY 0x5000 .seReg,
    rowXKK 0x6000 .ldByte, rowXKK 0x7000 .addByte ]

/-- Rows 11 to 19 of R66: the 8xy* group. -/
def opcodeMapAlu : List OpcodeRow :=
  [ rowXY 0x8000 .ldReg, rowXY 0x8001 .orReg, rowXY 0x8002 .andReg, rowXY 0x8003 .xorReg, rowXY 0x8004 .addReg,
    rowXY 0x8005 .sub, rowXY 0x8006 .shr, rowXY 0x8007 .subn, rowXY 0x800E .shl ]

/-- Rows 20 to 35 of R66. -/
def opcodeMapHigh : List OpcodeRow :=
  [ rowXY 0x9000 .sneReg, rowNNN 0xA000 .ldI, rowNNN 0xB000 .jpV0, rowXKK 0xC000 .rnd, rowXYN 0xD000 .drw,
    rowX 0xE09E .skp, rowX 0xE0A1 .sknp,
    rowX 0xF007 .ldVxDT, rowX 0xF00A .ldVxK, rowX 0xF015 .ldDTVx, rowX 0xF018 .ldSTVx, rowX 0xF01E .addI,
    rowX 0xF029 .ldF, rowX 0xF033 .ldB, rowX 0xF055 .ldStore, rowX 0xF065 .ldLoad ]

/-- R66: the 35 kinds in the order of the table. -/
def opcodeMap : List OpcodeRow := opcodeMapLow ++ opcodeMapAlu ++ opcodeMapHigh

/-- R64, R63: the instruction a word stands for, or none: the unknown opcodes of R67. -/
def classify (raw : Word) : Option Instr := (opcodeMap.find? (fun row => row.matches raw)).map (fun row => row.build raw)

/-- Why a sequence of bytes is no instruction. -/
inductive DecodeError where
  /-- The word matches none of the 35 kinds (R67). What a STEP does with it is R173. -/
  | unknownOpcode (raw : Word)
  /-- Fewer than two bytes: every instruction has two (R60). A fetch always gives two. -/
  | truncated
  deriving DecidableEq, Repr

/-- R60, R64: a word decodes to one instruction or is rejected as an unknown opcode. -/
def decodeWord (raw : Word) : Except DecodeError Instr :=
  match classify raw with
  | some i => .ok i
  | none => .error (.unknownOpcode raw)

/-- R43: the byte at the lower address is bits 15 to 8. -/
def wordOfBytes (hi lo : Byte) : Word := hi ++ lo

/-- R43: the byte of a word that lies at the lower address. -/
def highByte (raw : Word) : Byte := raw.extractLsb' 8 8

/-- R43: the byte of a word that lies at the higher address. -/
def lowByte (raw : Word) : Byte := raw.extractLsb' 0 8

/-- R60: the first instruction of a sequence of bytes, big-endian, and the bytes after it. -/
def decode : List Byte → Except DecodeError (Instr × List Byte)
  | hi :: lo :: rest =>
    match decodeWord (wordOfBytes hi lo) with
    | .ok i => .ok (i, rest)
    | .error e => .error e
  | _ => .error .truncated

/-- R61, R62: a word of format NNN. -/
def encNNN (op : Nibble) (nnn : Addr) : Word := op ++ nnn

/-- R61, R62: a word of format XKK. -/
def encXKK (op x : Nibble) (kk : Byte) : Word := op ++ (x ++ kk)

/-- R61, R62: a word of format XY or XYN, the last nibble a minor opcode or a length. -/
def encXYN (op x y n : Nibble) : Word := op ++ (x ++ (y ++ n))

/-- R66 read from kind to word. -/
def encode : Instr → Word
  | .sys nnn => encNNN 0x0 nnn
  | .cls => 0x00E0
  | .ret => 0x00EE
  | .jp nnn => encNNN 0x1 nnn
  | .call nnn => encNNN 0x2 nnn
  | .seByte x kk => encXKK 0x3 x kk
  | .sneByte x kk => encXKK 0x4 x kk
  | .seReg x y => encXYN 0x5 x y 0x0
  | .ldByte x kk => encXKK 0x6 x kk
  | .addByte x kk => encXKK 0x7 x kk
  | .ldReg x y => encXYN 0x8 x y 0x0
  | .orReg x y => encXYN 0x8 x y 0x1
  | .andReg x y => encXYN 0x8 x y 0x2
  | .xorReg x y => encXYN 0x8 x y 0x3
  | .addReg x y => encXYN 0x8 x y 0x4
  | .sub x y => encXYN 0x8 x y 0x5
  | .shr x y => encXYN 0x8 x y 0x6
  | .subn x y => encXYN 0x8 x y 0x7
  | .shl x y => encXYN 0x8 x y 0xE
  | .sneReg x y => encXYN 0x9 x y 0x0
  | .ldI nnn => encNNN 0xA nnn
  | .jpV0 nnn => encNNN 0xB nnn
  | .rnd x kk => encXKK 0xC x kk
  | .drw x y n => encXYN 0xD x y n
  | .skp x => encXKK 0xE x 0x9E
  | .sknp x => encXKK 0xE x 0xA1
  | .ldVxDT x => encXKK 0xF x 0x07
  | .ldVxK x => encXKK 0xF x 0x0A
  | .ldDTVx x => encXKK 0xF x 0x15
  | .ldSTVx x => encXKK 0xF x 0x18
  | .addI x => encXKK 0xF x 0x1E
  | .ldF x => encXKK 0xF x 0x29
  | .ldB x => encXKK 0xF x 0x33
  | .ldStore x => encXKK 0xF x 0x55
  | .ldLoad x => encXKK 0xF x 0x65

/-- The two bytes of an instruction as they lie in memory, lower address first (R43, R60). -/
def encodeBytes (i : Instr) : List Byte := [highByte (encode i), lowByte (encode i)]

/-- The instruction word whose low `nbits` bits are those of `w` and whose other bits are 0, bit 0 the least significant, as
spec/opcode_table.json numbers them. -/
def tableWord (nbits w : Nat) : Word := BitVec.ofNat 16 (w % 2 ^ nbits)

/-- What the decoder reads from that word laid out in memory as R43 says: the high byte at the lower address. -/
def decodeTableWord (nbits w : Nat) : Option Instr :=
  match decode [highByte (tableWord nbits w), lowByte (tableWord nbits w)] with
  | .ok (i, _) => some i
  | .error _ => none

end Sys2Proof
end

