-- ==== Sys2Proof/Config.lean ====
section
/-! DEFINITION. The parameters of the CORE (spec/00_scope.md rule R4) and the free values: the constants without a body
about which nothing can be proved but that they have a value. -/

namespace Sys2Proof

/-- `MEM_SIZE`: addresses 0x000 to 0xFFF (R4, R40). -/
abbrev Config.memSize : Nat := 4096

/-- `STACK_DEPTH` (R4). -/
abbrev Config.stackDepth : Nat := 16

/-- `DISP_W` (R4). -/
abbrev Config.dispWidth : Nat := 64

/-- `DISP_H` (R4). -/
abbrev Config.dispHeight : Nat := 32

/-- `PROG_BASE`: where the program image is loaded and where `PC` starts (R4, R201). -/
abbrev Config.progBase : Word := 0x0200#16

/-- The first address `MEM_INIT` covers: the font ends at 0x04F (R4, R41). -/
abbrev Config.imageBase : Nat := 0x050

/-- `UNKNOWN_POLICY`, what a word that matches no kind does (R4, R173). -/
inductive UnknownPolicy where
  /-- Latch `UnknownOpcode` and stay at the word. -/
  | halt
  /-- Go on at the next word. -/
  | skip
  deriving DecidableEq, Repr

/-- FREE VALUE. `Config.memInit k a` is the byte at address `a` (0x050 to 0xFFF) that nobody loaded, after the `k`-th RESET:
`MEM_INIT` where the loader wrote nothing (R202: "no specified value"; spec/93_implementation_defined.md U10).
DESIGN CHOICE, safe (notes/assumptions/3.md). -/
opaque Config.memInit : Nat → Nat → Byte

/-- FREE VALUE. `Config.randomByte k` is the `k`-th random byte taken by a STEP for which the host stated no `r`
(R133: "`r` is a free input"). DESIGN CHOICE, safe (notes/assumptions/2.md). -/
opaque Config.randomByte : Nat → Byte

end Sys2Proof
end

