-- ==== Sys2Proof/Machine/State.lean ====
section
/-! DEFINITION. The state of the CORE (spec/10_state.md rule R10), the events it takes (spec/00_scope.md rule R5), the fault
causes (spec/60_exceptions.md rule R170) and the state after reset (R25). -/

namespace Sys2Proof.Machine

/-- R170: the fault causes; `Cause.code` gives their numbers. -/
inductive Cause where
  /-- Code 0: no fault is latched. -/
  | noFault
  /-- Code 1: the fetched word matches no kind and `UNKNOWN_POLICY = HALT`. -/
  | unknownOpcode
  /-- Code 2: CALL with `SP = 16`. -/
  | stackOverflow
  /-- Code 3: RET with `SP = 0`. -/
  | stackUnderflow
  /-- Code 4: fetch, DRW or LD B would touch an address above 0xFFF. -/
  | memoryAddressOutOfRange
  /-- Code 5: LD [I],Vx or LD Vx,[I] with `I + x > 15`. -/
  | registerIndexOutOfRange
  /-- Code 6: SKP or SKNP with `V[x] > 15`. -/
  | keyIndexOutOfRange
  /-- Code 7: SYS. -/
  | unsupportedSys
  deriving DecidableEq, Repr

/-- `mem`: the cells that differ from what an unlisted address holds, as (address, byte) pairs in one canonical form
(`Memory.wf` in Machine/Ops.lean). -/
abbrev Memory := List Host.Cell

/-- R19: `disp[row][col]`, 32 rows of 64 pixels, `true` a set pixel. -/
abbrev Grid := Vector (Vector Bool 64) 32

/-- R5: what the host can do to the CORE, one at a time, each atomic. -/
inductive Event where
  /-- RESET with the bytes of `MEM_INIT` that the loader wrote, as (address, byte) pairs, a later pair over an earlier one
  (R200, R202). -/
  | reset (image : List Host.Cell)
  /-- STEP(r): one instruction cycle with the random byte `r` (R71). -/
  | step (r : Byte)
  /-- TICK (R184). -/
  | tick
  /-- KEY_PRESS(k) (R185). -/
  | keyPress (k : Nibble)
  /-- KEY_RELEASE(k) (R186). -/
  | keyRelease (k : Nibble)
  deriving DecidableEq, Repr

/-- R10: the complete state of the CORE, then the launch parameter `UNKNOWN_POLICY` and the model's own fields. -/
structure State where
  /-- `V[0..15]`; `VF` is `V[15]` (R11, R12). -/
  v : Vector Byte 16
  /-- `I` (R14). -/
  i : Word
  /-- `PC` (R13). -/
  pc : Word
  /-- `SP`, 0 to 16 (R15). -/
  sp : Fin 17
  /-- `stack[0..15]` (R15). -/
  stack : Vector Word 16
  /-- `DT` (R16). -/
  dt : Byte
  /-- `ST` (R16). -/
  st : Byte
  /-- `keys[0..15]` (R17). -/
  keys : Vector Bool 16
  /-- `halted_for_key` (R18). -/
  haltedForKey : Bool
  /-- `pending_key_register` (R18). -/
  pendingKeyRegister : Nibble
  /-- `disp` (R19). -/
  disp : Grid
  /-- `fault_cause` (R20). -/
  faultCause : Cause
  /-- `mem` (R40). -/
  mem : Memory
  /-- The launch parameter `UNKNOWN_POLICY` (R4), held as data; no event changes it. DESIGN CHOICE, safe
  (notes/assumptions/6.md). -/
  unknownPolicy : UnknownPolicy
  /-- MODEL. The events the host has presented and the CORE has not yet performed, oldest first (R6: "queued and drained
  between cycles"). DESIGN CHOICE (notes/assumptions/1.md). -/
  inbox : List Event
  /-- MODEL. The input `ev_rand` of the STEP being performed (R23), none where the host stated no value. DESIGN CHOICE, safe
  (notes/assumptions/2.md). -/
  evRand : Option Byte
  /-- MODEL. How many free random bytes have been taken. DESIGN CHOICE, safe (notes/assumptions/2.md). -/
  randIndex : Nat
  /-- MODEL. How many RESET events there have been; it picks the unknown bytes of the launch memory. DESIGN CHOICE, safe
  (notes/assumptions/3.md). -/
  launch : Nat
  /-- MODEL. How often the output `disp_changed` has pulsed (R24). DESIGN CHOICE, safe (notes/assumptions/7.md). -/
  dispChangedPulses : Nat
  /-- MODEL. How often the output `unknown_opcode` has pulsed (R24). DESIGN CHOICE, safe (notes/assumptions/7.md). -/
  unknownOpcodePulses : Nat
  deriving DecidableEq, Repr

/-- No step of this model stops with a fault of the model's own: each fault of the spec (R170) is a latched cause and a NEXT
state, as R171 and R172 describe, so this type has no constructor. DESIGN CHOICE, safe (notes/assumptions/9.md). -/
inductive Fault where
  deriving DecidableEq, Repr

/-- The reasons this model refuses. -/
inductive Refusal where
  /-- Raised by an arm of `exec` whose instruction has no meaning yet; no arm is left. Safe. -/
  | notModelled (mnemonic : String)
  /-- Raised by a RESET event whose image names an address outside 0x050 to 0xFFF
  (spec/93_implementation_defined.md U9: `refuse`, "`MEM_INIT` is defined on 0x050 to 0xFFF only"). Safe
  (notes/assumptions/5.md). -/
  | imageOutsideMemory
  deriving DecidableEq, Repr

/-- The three outcomes of a step of this machine. -/
abbrev Outcome := Host.Outcome State Fault Refusal

/-- R19, R25: every pixel unset. -/
def Grid.clear : Grid := Vector.replicate 32 (Vector.replicate 64 false)

/-- R25, R200: the state after RESET. The font (R42) is what the unlisted addresses 0x000 to 0x04F hold; nothing is loaded
elsewhere. Every value but those of `pc`, `sp` and `mem` is the spec's decision D13 or D3 (notes/assumptions/10.md); the
model's own fields start empty, at `HALT` (R4's default) or at 0 (DESIGN CHOICE, notes/assumptions/1.md, 2.md, 3.md, 6.md,
7.md). -/
def State.reset : State where
  v := Vector.replicate 16 0
  i := 0
  pc := Config.progBase
  sp := 0
  stack := Vector.replicate 16 0
  dt := 0
  st := 0
  keys := Vector.replicate 16 false
  haltedForKey := false
  pendingKeyRegister := 0
  disp := Grid.clear
  faultCause := .noFault
  mem := []
  unknownPolicy := .halt
  inbox := []
  evRand := none
  randIndex := 0
  launch := 0
  dispChangedPulses := 0
  unknownOpcodePulses := 0

end Sys2Proof.Machine
end

