-- ==== Sys2Proof/Machine/Font.lean ====
section
/-! DEFINITION. The font table (spec/20_memory.md rule R42, decision D22). The byte values are the spec's, which marks them
as general knowledge: UNVERIFIED, unsafe, notes/assumptions/12.md. -/

namespace Sys2Proof.Machine

/-- R42: the glyphs of the digits 0 to 7, five bytes each, row 0 first. -/
def fontLow : List Byte :=
  [ 0xF0, 0x90, 0x90, 0x90, 0xF0,  0x20, 0x60, 0x20, 0x20, 0x70,
    0xF0, 0x10, 0xF0, 0x80, 0xF0,  0xF0, 0x10, 0xF0, 0x10, 0xF0,
    0x90, 0x90, 0xF0, 0x10, 0x10,  0xF0, 0x80, 0xF0, 0x10, 0xF0,
    0xF0, 0x80, 0xF0, 0x90, 0xF0,  0xF0, 0x10, 0x20, 0x40, 0x40 ]

/-- R42: the glyphs of the digits 8 to F. -/
def fontHigh : List Byte :=
  [ 0xF0, 0x90, 0xF0, 0x90, 0xF0,  0xF0, 0x90, 0xF0, 0x10, 0xF0,
    0xF0, 0x90, 0xF0, 0x90, 0x90,  0xE0, 0x90, 0xE0, 0x90, 0xE0,
    0xF0, 0x80, 0x80, 0x80, 0xF0,  0xE0, 0x90, 0x90, 0x90, 0xE0,
    0xF0, 0x80, 0xF0, 0x80, 0xF0,  0xF0, 0x80, 0xF0, 0x80, 0x80 ]

/-- R42: the 80 bytes at 0x000 to 0x04F. -/
def fontTable : List Byte := fontLow ++ fontHigh

end Sys2Proof.Machine
end

