-- ==== Sys2Proof/Machine/Ops.lean ====
section
/-! DEFINITION. The named operations over memory, registers, the call stack and the program counter, and taking a fault
(spec/20_memory.md, spec/10_state.md, spec/60_exceptions.md section 1). -/

namespace Sys2Proof.Machine

/-! ## Memory -/

/-- What an address that memory does not list holds: the font byte below 0x050 (R41, R42); elsewhere no stated value, the
byte being one that nobody loaded (R25, R202; notes/assumptions/3.md). -/
def Memory.unlisted (a : Nat) : Option Byte := fontTable[a]?

/-- The stated byte at an address, if there is one. -/
def Memory.byte? (m : Memory) (a : Nat) : Option Byte :=
  match m with
  | [] => Memory.unlisted a
  | c :: rest => if c.1 = a then some c.2 else Memory.byte? rest a

/-- Lists a byte at its place among rising addresses. -/
def Memory.place (m : Memory) (a : Nat) (b : Byte) : Memory :=
  match m with
  | [] => [(a, b)]
  | c :: rest => if a < c.1 then (a, b) :: c :: rest else if c.1 = a then (a, b) :: rest else c :: Memory.place rest a b

/-- `mem[a] <- b` (R9). Writing what the unlisted address holds takes the entry away, so that equal memories are equal
data. -/
def Memory.write (m : Memory) (a : Nat) (b : Byte) : Memory :=
  if Memory.unlisted a = some b then m.filter (fun c => c.1 != a) else Memory.place m a b

/-- Bytes at consecutive addresses, one at a time (R44). -/
def Memory.writes (m : Memory) (a : Nat) (bytes : List Byte) : Memory :=
  match bytes with
  | [] => m
  | b :: rest => Memory.writes (Memory.write m a b) (a + 1) rest

/-- The canonical form: addresses strictly rising and inside the address space (R40), no entry equal to what the unlisted
address holds. -/
abbrev Memory.wf (m : Memory) : Prop :=
  m.Pairwise (fun c d => c.1 < d.1) ∧ ∀ c ∈ m, c.1 < Config.memSize ∧ Memory.unlisted c.1 ≠ some c.2

/-- `mem[a]` (R9): the stated byte, or the free value of a byte nobody loaded (R202; notes/assumptions/3.md). -/
def State.readByte (s : State) (a : Nat) : Byte := (s.mem.byte? a).getD (Config.memInit s.launch a)

/-- The `n` bytes at `a .. a+n-1`, the byte at the lowest address first. -/
def State.readBytes (s : State) (a n : Nat) : List Byte := (List.range n).map (fun k => s.readByte (a + k))

/-- R55: whether `n` bytes at `addr` may be accessed. The check is on the whole access and addresses never wrap (R46); with
`n = 0` nothing is accessed and nothing is checked. -/
def accessInRange (addr n : Nat) : Bool := n == 0 || decide (addr + n ≤ Config.memSize)

/-- `MemRead(addr, n)` (R55), byte by byte; none stands for `raise MemoryAddressOutOfRange`. -/
def State.memRead (s : State) (addr n : Nat) : Option (List Byte) :=
  if accessInRange addr n then some (s.readBytes addr n) else none

/-- `MemWrite(addr, n, v)` (R55), its `n` bytes given most significant first; none stands for
`raise MemoryAddressOutOfRange`, and then nothing is written. -/
def State.memWrite (s : State) (addr : Nat) (bytes : List Byte) : Option State :=
  if accessInRange addr bytes.length then some { s with mem := s.mem.writes addr bytes } else none

/-- The fetch `MemRead(PC, 2)`, big-endian (R43, R55), at any parity of `PC` (R45); none where it raises
`MemoryAddressOutOfRange` (R46). A pure read. -/
def State.fetch (s : State) : Option Word :=
  match s.memRead s.pc.toNat 2 with
  | some [hi, lo] => some (wordOfBytes hi lo)
  | _ => none

/-! ## Registers -/

/-- `V[x]` (R9, R11). -/
def State.getV (s : State) (x : Nibble) : Byte := s.v[x.toNat]'x.isLt

/-- `V[x] <- b` (R9, R11): no register is hard-wired. -/
def State.setV (s : State) (x : Nibble) (b : Byte) : State := { s with v := s.v.set x.toNat b x.isLt }

/-- A result to `V[x]`, then a flag to `VF`: where `x` is 0xF the flag is the one kept (R121, decision D11). -/
def State.setResultAndFlag (s : State) (x : Nibble) (result flag : Byte) : State := (s.setV x result).setV 0xF flag

/-- Bytes to consecutive registers from `V[first]` on, for the block load (R145). -/
def State.setRegs (s : State) (first : Nat) (bytes : List Byte) : State :=
  match bytes with
  | [] => s
  | b :: rest => State.setRegs (s.setV (BitVec.ofNat 4 first) b) (first + 1) rest

/-- `I <- w` (R14): 16 bits, never masked to 12. -/
def State.setI (s : State) (w : Word) : State := { s with i := w }

/-! ## Program counter -/

/-- `pc <- target` (R9): a target is not checked when it is written (R109). -/
def State.setPc (s : State) (target : Word) : State := { s with pc := target }

/-- `next` (R9, R72): `pc <- PC + 2`. -/
def State.advance (s : State) : State := s.setPc (s.pc + 2)

/-- `skip` (R9, R72): `pc <- PC + 4`. -/
def State.skip (s : State) : State := s.setPc (s.pc + 4)

/-- R72: the end of a conditional skip. -/
def State.skipIf (s : State) (c : Bool) : State := if c then s.skip else s.advance

/-! ## Call stack -/

/-- A push: `stack[SP] <- w`, then `SP` one more (R15); none where `SP = 16`. -/
def State.push? (s : State) (w : Word) : Option State :=
  if h : s.sp.val < 16 then
    some { s with stack := s.stack.set s.sp.val w h, sp := ⟨s.sp.val + 1, Nat.succ_lt_succ h⟩ }
  else none

/-- A pop: `stack[SP - 1]` and the state with `SP` one less (R15); none where `SP = 0`. The slot keeps its contents (R101). -/
def State.pop? (s : State) : Option (Word × State) :=
  if h : 0 < s.sp.val then
    some (s.stack[s.sp.val - 1]'(by have := s.sp.isLt; omega), { s with sp := ⟨s.sp.val - 1, by have := s.sp.isLt; omega⟩ })
  else none

/-! ## Keys, timers, display -/

/-- `keys[k]` (R17). -/
def State.keyDown (s : State) (k : Nibble) : Bool := s.keys[k.toNat]'k.isLt

/-- `keys[k] <- b` (R17). -/
def State.setKey (s : State) (k : Nibble) (b : Bool) : State := { s with keys := s.keys.set k.toNat b k.isLt }

/-- The start of a key wait (R18, R165): the index of the register, not its contents (spec/90_conflicts.md C5). -/
def State.waitForKey (s : State) (x : Nibble) : State := { s with haltedForKey := true, pendingKeyRegister := x }

/-- A new picture and one pulse of `disp_changed` (R24, R150, R151). -/
def State.show (s : State) (d : Grid) : State := { s with disp := d, dispChangedPulses := s.dispChangedPulses + 1 }

/-! ## The random byte -/

/-- The random byte `r` of this STEP (R133): the host's value, or a free one where the host stated none
(notes/assumptions/2.md). -/
def State.randomInput (s : State) : Byte := s.evRand.getD (Config.randomByte s.randIndex)

/-- The state once the random byte is used: the port's value is spent, or the next free byte is another one
(R133: "two RNDs are independent"). -/
def State.useRandom (s : State) : State :=
  match s.evRand with
  | some _ => { s with evRand := none }
  | none => { s with randIndex := s.randIndex + 1 }

/-! ## Taking a fault -/

/-- `raise F` (R171): the STEP writes nothing but `fault_cause`. There is no vector, no saved register and no mode change
(R181). It is a NEXT state, in which every STEP is a no-op (R172; notes/assumptions/9.md). There is no return from a fault:
only RESET clears the latch (R182). -/
def raise (c : Cause) (s : State) : Outcome := .next { s with faultCause := c }

end Sys2Proof.Machine
end

