-- ==== Sys2Proof/Machine/Operands.lean ====
section
/-! DEFINITION. The operand forms: immediates, the key index, the block copy's register indices, sprite bytes, decimal
digits, the glyph address (spec/30_encoding.md R63, spec/42_index_memory.md, spec/43_display.md, spec/44_timer_key.md). -/

namespace Sys2Proof.Machine

/-- `zext_16(nnn)` (R63). -/
def addrWord (nnn : Addr) : Word := nnn.setWidth 16

/-- `zext_16(b)` (R9). -/
def byteWord (b : Byte) : Word := b.setWidth 16

/-- The key SKP and SKNP test: `V[x]`; none stands for `raise KeyIndexOutOfRange`, `V[x] > 15` (R163, R164, decision D10). -/
def State.keyOperand (s : State) (x : Nibble) : Option Nibble :=
  if (s.getV x).toNat ≤ 15 then some ((s.getV x).setWidth 4) else none

/-- The first index of a block copy, `I`, into the register file and into memory alike; none stands for
`raise RegisterIndexOutOfRange`, `I + x > 15` (R144, R145, decision D9). -/
def State.blockOperand (s : State) (x : Nibble) : Option Nat :=
  if s.i.toNat + x.toNat ≤ 15 then some s.i.toNat else none

/-- `V[first], …, V[first+n-1]` (R144). -/
def State.blockRegs (s : State) (first n : Nat) : List Byte :=
  (List.range n).map (fun k => s.getV (BitVec.ofNat 4 (first + k)))

/-- The `n` bytes of a sprite at `I` (R151); with `n = 0` nothing is read or checked (R55, decision D16); none stands for
`raise MemoryAddressOutOfRange`. -/
def State.spriteOperand (s : State) (n : Nibble) : Option (List Byte) :=
  s.memRead s.i.toNat n.toNat

/-- The hundreds, tens and ones digits, one per byte (R143). -/
def decimalDigits (b : Byte) : List Byte := [b / 100, b / 10 % 10, b % 10]

/-- `zext_16(V[x]) * 5`: the whole of the register is multiplied (R142, decision D19). -/
def glyphAddress (b : Byte) : Word := byteWord b * 5

end Sys2Proof.Machine
end

