-- ==== Sys2Proof/Machine/Alu.lean ====
section
/-! DEFINITION. Register load, ALU and random (spec/41_alu.md, family laws R120 and R121). Result and flag are functions of
the state before the instruction. -/

namespace Sys2Proof.Machine

/-- LD Vx, byte (R122). -/
def execLdByte (x : Nibble) (kk : Byte) (s : State) : Outcome := .next (s.setV x kk).advance

/-- ADD Vx, byte (R123): wraps, no flag (decision D12). -/
def execAddByte (x : Nibble) (kk : Byte) (s : State) : Outcome := .next (s.setV x (s.getV x + kk)).advance

/-- LD Vx, Vy (R124). -/
def execLdReg (x y : Nibble) (s : State) : Outcome := .next (s.setV x (s.getV y)).advance

/-- OR Vx, Vy (R125): `VF` is not reset (decision D12). -/
def execOrReg (x y : Nibble) (s : State) : Outcome := .next (s.setV x (s.getV x ||| s.getV y)).advance

/-- AND Vx, Vy (R126). -/
def execAndReg (x y : Nibble) (s : State) : Outcome := .next (s.setV x (s.getV x &&& s.getV y)).advance

/-- XOR Vx, Vy (R127). -/
def execXorReg (x y : Nibble) (s : State) : Outcome := .next (s.setV x (s.getV x ^^^ s.getV y)).advance

/-- ADD Vx, Vy (R128): `VF` = carry. -/
def execAddReg (x y : Nibble) (s : State) : Outcome :=
  .next (s.setResultAndFlag x (s.getV x + s.getV y) (carryFlag (s.getV x) (s.getV y))).advance

/-- SUB Vx, Vy (R129): `VF` = not borrow. -/
def execSub (x y : Nibble) (s : State) : Outcome :=
  .next (s.setResultAndFlag x (s.getV x - s.getV y) (noBorrowFlag (s.getV x) (s.getV y))).advance

/-- SHR Vx (R130): `V[x]` in place, `y` ignored (R73). -/
def execShr (x _y : Nibble) (s : State) : Outcome :=
  .next (s.setResultAndFlag x (s.getV x >>> 1) (lowBitFlag (s.getV x))).advance

/-- SUBN Vx, Vy (R131): `VF` = not borrow of `V[y] - V[x]`. -/
def execSubn (x y : Nibble) (s : State) : Outcome :=
  .next (s.setResultAndFlag x (s.getV y - s.getV x) (noBorrowFlag (s.getV y) (s.getV x))).advance

/-- SHL Vx (R132): `V[x]` in place, `y` ignored (R73). -/
def execShl (x _y : Nibble) (s : State) : Outcome :=
  .next (s.setResultAndFlag x (s.getV x <<< 1) (highBitFlag (s.getV x))).advance

/-- RND Vx, byte (R133). -/
def execRnd (x : Nibble) (kk : Byte) (s : State) : Outcome := .next (s.useRandom.setV x (s.randomInput &&& kk)).advance

end Sys2Proof.Machine
end

