-- ==== Sys2Proof/Machine/Sprite.lean ====
section
/-! DEFINITION. The XOR sprite engine (spec/43_display.md rules R152 to R154), loop by loop as R152 writes it. -/

namespace Sys2Proof.Machine

/-- `disp[row][col]` (R19). -/
def Grid.pixel (d : Grid) (row : Fin 32) (col : Fin 64) : Bool := d[row.val][col.val]

/-- `disp[row][col] <- disp[row][col] ^ 1` (R152). -/
def Grid.toggle (d : Grid) (row : Fin 32) (col : Fin 64) : Grid :=
  d.set row.val (d[row.val].set col.val (!d[row.val][col.val]))

/-- `row mod 32` (R154). -/
def wrapRow (row : Nat) : Fin 32 := ⟨row % 32, Nat.mod_lt _ (by decide)⟩

/-- `col mod 64` (R154). -/
def wrapCol (col : Nat) : Fin 64 := ⟨col % 64, Nat.mod_lt _ (by decide)⟩

/-- R152: bit `7 - j` of a sprite row, `j = 0` the leftmost pixel. -/
def spriteBit (b : Byte) (j : Nat) : Bool := b.getLsbD (7 - j)

/-- R152, the inner loop's body: a set bit toggles its pixel, and collides if the pixel was set (R153). A clear bit leaves
its pixel alone. -/
def drawBit (b : Byte) (x : Nat) (row : Fin 32) (j : Nat) (acc : Grid × Bool) : Grid × Bool :=
  if spriteBit b j then (acc.1.toggle row (wrapCol (x + j)), acc.2 || acc.1.pixel row (wrapCol (x + j))) else acc

/-- R152, the inner loop: `j` from 0 to 7. -/
def drawRow (b : Byte) (x : Nat) (row : Fin 32) (acc : Grid × Bool) : Grid × Bool :=
  (List.range 8).foldl (fun acc j => drawBit b x row j acc) acc

/-- R152, the outer loop: sprite byte `i` on row `(y + i) mod 32` (decision D16). -/
def drawRows (bytes : List Byte) (x y : Nat) (acc : Grid × Bool) : Grid × Bool :=
  match bytes with
  | [] => acc
  | b :: rest => drawRows rest x (y + 1) (drawRow b x (wrapRow y) acc)

/-- R152: `draw(bytes, x, y)`, the new picture and whether any pixel went from set to unset (R153). -/
def draw (bytes : List Byte) (x y : Nat) (d : Grid) : Grid × Bool := drawRows bytes x y (d, false)

end Sys2Proof.Machine
end

