-- ==== Sys2Proof/Machine/Display.lean ====
section
/-! DEFINITION. The display instructions (spec/43_display.md). -/

namespace Sys2Proof.Machine

/-- CLS (R150): every pixel 0, and a pulse even where the display was clear. -/
def execCls (s : State) : Outcome := .next (s.show Grid.clear).advance

/-- DRW Vx, Vy, n (R151): coordinates are read before `VF` is written; `VF` is always written. -/
def execDrw (x y n : Nibble) (s : State) : Outcome :=
  match s.spriteOperand n with
  | none => raise .memoryAddressOutOfRange s
  | some bytes =>
    let drawn := draw bytes (s.getV x).toNat (s.getV y).toNat s.disp
    .next ((s.show drawn.1).setV 0xF (flagByte drawn.2)).advance

end Sys2Proof.Machine
end

