-- ==== Sys2Proof/Machine/Flow.lean ====
section
/-! DEFINITION. Control flow (spec/40_flow.md, family law R109). -/

namespace Sys2Proof.Machine

/-- SYS addr (R100): always `UnsupportedSys`; `nnn` is ignored (R73, decision D6). -/
def execSys (_nnn : Addr) (s : State) : Outcome := raise .unsupportedSys s

/-- RET (R101): the popped address whole, with no advance. -/
def execRet (s : State) : Outcome :=
  match s.pop? with
  | none => raise .stackUnderflow s
  | some (target, popped) => .next (popped.setPc target)

/-- JP addr (R102). -/
def execJp (nnn : Addr) (s : State) : Outcome := .next (s.setPc (addrWord nnn))

/-- CALL addr (R103). -/
def execCall (nnn : Addr) (s : State) : Outcome :=
  match s.push? (s.pc + 2) with
  | none => raise .stackOverflow s
  | some pushed => .next (pushed.setPc (addrWord nnn))

/-- SE Vx, byte (R104). -/
def execSeByte (x : Nibble) (kk : Byte) (s : State) : Outcome := .next (s.skipIf (s.getV x == kk))

/-- SNE Vx, byte (R105). -/
def execSneByte (x : Nibble) (kk : Byte) (s : State) : Outcome := .next (s.skipIf (s.getV x != kk))

/-- SE Vx, Vy (R106). -/
def execSeReg (x y : Nibble) (s : State) : Outcome := .next (s.skipIf (s.getV x == s.getV y))

/-- SNE Vx, Vy (R107). -/
def execSneReg (x y : Nibble) (s : State) : Outcome := .next (s.skipIf (s.getV x != s.getV y))

/-- JP V0, addr (R108): the sum is not masked to 12 bits (decision D19). -/
def execJpV0 (nnn : Addr) (s : State) : Outcome := .next (s.setPc (addrWord nnn + byteWord (s.getV 0)))

end Sys2Proof.Machine
end

