-- ==== Sys2Proof/Machine/IndexMemory.lean ====
section
/-! DEFINITION. Index register and memory (spec/42_index_memory.md, family law R146). The block copies are literal: `I` is
the base into the register file and into memory (spec/90_conflicts.md C4). -/

namespace Sys2Proof.Machine

/-- LD I, addr (R140). -/
def execLdI (nnn : Addr) (s : State) : Outcome := .next (s.setI (addrWord nnn)).advance

/-- ADD I, Vx (R141): with `x = 0xF` the old `VF` is added, then `VF` receives the flag. -/
def execAddI (x : Nibble) (s : State) : Outcome :=
  .next ((s.setI (s.i + byteWord (s.getV x))).setV 0xF (indexFlag s.i (s.getV x))).advance

/-- LD F, Vx (R142). -/
def execLdF (x : Nibble) (s : State) : Outcome := .next (s.setI (glyphAddress (s.getV x))).advance

/-- LD B, Vx (R143): three bytes at `I`, or the fault with none written. -/
def execLdB (x : Nibble) (s : State) : Outcome :=
  match s.memWrite s.i.toNat (decimalDigits (s.getV x)) with
  | none => raise .memoryAddressOutOfRange s
  | some stored => .next stored.advance

/-- LD [I], Vx (R144): `mem[I + i] <- V[I + i]` for `i` in 0 to `x`, then `I <- I + x + 1`. Once the index check passes every
address is at most 15, so the store cannot be out of range (R46). -/
def execLdStore (x : Nibble) (s : State) : Outcome :=
  match s.blockOperand x with
  | none => raise .registerIndexOutOfRange s
  | some base =>
    .next ({ s with mem := s.mem.writes base (s.blockRegs base (x.toNat + 1)) }.setI (BitVec.ofNat 16 (base + x.toNat + 1))).advance

/-- LD Vx, [I] (R145): `V[I + i] <- mem[I + i]` for `i` in 0 to `x`, then `I <- I + x + 1`. -/
def execLdLoad (x : Nibble) (s : State) : Outcome :=
  match s.blockOperand x with
  | none => raise .registerIndexOutOfRange s
  | some base =>
    .next ((s.setRegs base (s.readBytes base (x.toNat + 1))).setI (BitVec.ofNat 16 (base + x.toNat + 1))).advance

end Sys2Proof.Machine
end

