-- ==== Sys2Proof/Machine/TimerKey.lean ====
section
/-! DEFINITION. Timers and keys (spec/44_timer_key.md, family law R166). -/

namespace Sys2Proof.Machine

/-- LD Vx, DT (R160). -/
def execLdVxDT (x : Nibble) (s : State) : Outcome := .next (s.setV x s.dt).advance

/-- LD DT, Vx (R161). -/
def execLdDTVx (x : Nibble) (s : State) : Outcome := .next { s with dt := s.getV x }.advance

/-- LD ST, Vx (R162). -/
def execLdSTVx (x : Nibble) (s : State) : Outcome := .next { s with st := s.getV x }.advance

/-- SKP Vx (R163): the level `keys[V[x]]`. -/
def execSkp (x : Nibble) (s : State) : Outcome :=
  match s.keyOperand x with
  | none => raise .keyIndexOutOfRange s
  | some k => .next (s.skipIf (s.keyDown k))

/-- SKNP Vx (R164). -/
def execSknp (x : Nibble) (s : State) : Outcome :=
  match s.keyOperand x with
  | none => raise .keyIndexOutOfRange s
  | some k => .next (s.skipIf (!s.keyDown k))

/-- LD Vx, K (R165): advances at once; the halt acts on the next STEP, and the register is written by KEY_PRESS (R185). -/
def execLdVxK (x : Nibble) (s : State) : Outcome := .next (s.waitForKey x).advance

end Sys2Proof.Machine
end

