-- ==== Sys2Proof/Machine/Cycle.lean ====
section
/-! DEFINITION. The instruction cycle `STEP` (spec/30_encoding.md rule R71), the unknown opcode
(spec/60_exceptions.md rule R173), and placing a word where the next fetch reads. -/

namespace Sys2Proof.Machine

/-- One pulse of `unknown_opcode` (R24, R173). -/
def State.pulseUnknown (s : State) : State := { s with unknownOpcodePulses := s.unknownOpcodePulses + 1 }

/-- R173: the pulse, then `UNKNOWN_POLICY`. `HALT` latches `UnknownOpcode` and leaves `PC`; `SKIP` goes on two bytes further
and latches nothing. -/
def unknownWord (s : State) : Outcome :=
  match s.unknownPolicy with
  | .halt => raise .unknownOpcode s.pulseUnknown
  | .skip => .next s.pulseUnknown.advance

/-- R71, past the gates: fetch, decode, execute. -/
def fetchAndRun (s : State) : Outcome :=
  match s.fetch with
  | none => raise .memoryAddressOutOfRange s
  | some raw =>
    match decodeWord raw with
    | .ok i => exec i s
    | .error _ => unknownWord s

/-- R71, R172, R192: a STEP is gated by a latched fault and by a key wait. -/
def State.gated (s : State) : Bool := s.faultCause != .noFault || s.haltedForKey

/-- `STEP` (R71): a gated STEP changes nothing at all. The random byte is `State.randomInput`. -/
def cycle (s : State) : Outcome := if s.gated then .next s else fetchAndRun s

/-- `s` ready to fetch: no gate closed, no event waiting, and `PC` where a fetch is in range (R46), which is `PROG_BASE` if
it was not. -/
def State.readyToFetch (s : State) : State :=
  { s with
    pc := if s.pc.toNat + 2 ≤ Config.memSize then s.pc else Config.progBase
    haltedForKey := false
    faultCause := .noFault
    inbox := [] }

/-- `s` with a word stored big-endian at `PC` (R43). -/
def State.storeAtPc (s : State) (raw : Word) : State :=
  { s with mem := s.mem.writes s.pc.toNat [highByte raw, lowByte raw] }

end Sys2Proof.Machine
end

