-- ==== Sys2Proof/Machine/Events.lean ====
section
/-! DEFINITION. The five events of the host (spec/00_scope.md rule R5): RESET (spec/70_reset_and_hazards.md R200), STEP(r)
(R71), TICK, KEY_PRESS and KEY_RELEASE (spec/60_exceptions.md R184 to R186). -/

namespace Sys2Proof.Machine

/-- A timer one lower, floored at zero (R184). -/
def countDown (t : Byte) : Byte := if t = 0 then 0 else t - 1

/-- TICK (R184): acts whatever `halted_for_key` and `fault_cause` hold (decision D17). -/
def tick (s : State) : State := { s with dt := countDown s.dt, st := countDown s.st }

/-- The end of a key wait (R185): the key code, zero-extended, to the pending register. -/
def State.endWait (s : State) (k : Nibble) : State :=
  { s.setV s.pendingKeyRegister (k.setWidth 8) with haltedForKey := false }

/-- KEY_PRESS(k) (R185): the press is not compared with the previous value of `keys[k]`. -/
def keyPress (k : Nibble) (s : State) : State :=
  if s.haltedForKey then (s.setKey k true).endWait k else s.setKey k true

/-- KEY_RELEASE(k) (R186). -/
def keyRelease (k : Nibble) (s : State) : State := s.setKey k false

/-- The addresses `MEM_INIT` is defined on (R4; spec/93_implementation_defined.md U9). -/
def imageInRange (image : List Host.Cell) : Bool :=
  image.all (fun c => decide (Config.imageBase ≤ c.1) && decide (c.1 < Config.memSize))

/-- The launch memory: the font, and over it the bytes the loader wrote (R200, R202). -/
def loadImage (image : List Host.Cell) : Memory := image.foldl (fun m c => Memory.write m c.1 c.2) []

/-- R202: a program image, "a raw byte stream loaded verbatim into memory starting at offset 0x200". -/
def programImage (bytes : List Byte) : List Host.Cell := bytes.mapIdx (fun k b => (Config.progBase.toNat + k, b))

/-- The state RESET leaves (R200): `State.reset` with the launch memory. `UNKNOWN_POLICY` is the CORE's parameter and stays;
the events still to come, the record of the pulses and the free values already taken are the model's and stay
(notes/assumptions/8.md). -/
def afterReset (image : List Host.Cell) (s : State) : State :=
  { State.reset with
    mem := loadImage image
    unknownPolicy := s.unknownPolicy
    inbox := s.inbox
    randIndex := s.randIndex
    launch := s.launch + 1
    dispChangedPulses := s.dispChangedPulses
    unknownOpcodePulses := s.unknownOpcodePulses }

/-- RESET (R200), refused where the image names an address `MEM_INIT` is not defined on (U9; notes/assumptions/5.md). -/
def hostReset (image : List Host.Cell) (s : State) : Outcome :=
  if imageInRange image then .next (afterReset image s) else .refused .imageOutsideMemory

/-- Applies `f` to the next state, if there is one. -/
def onNext (f : State → State) (o : Outcome) : Outcome :=
  match o with
  | .next t => .next (f t)
  | .fault q => .fault q
  | .refused q => .refused q

/-- The input `ev_rand` at rest: it holds a value during a STEP only (R7, R23). -/
def State.dropRand (s : State) : State := { s with evRand := none }

/-- `STEP(r)` (R71, R133): one instruction cycle in which the random byte is `r`. -/
def stepWith (r : Byte) (s : State) : Outcome := onNext State.dropRand (cycle { s with evRand := some r })

/-- One event, performed to completion (R5, R6). -/
def perform (e : Event) (s : State) : Outcome :=
  match e with
  | .reset image => hostReset image s
  | .step r => stepWith r s
  | .tick => .next (tick s)
  | .keyPress k => .next (keyPress k s)
  | .keyRelease k => .next (keyRelease k s)

/-- The next event: the oldest one waiting, or, when none waits, a STEP for which the host stated no random byte
(R6; notes/assumptions/1.md). -/
def nextEvent (s : State) : Outcome :=
  match s.inbox with
  | [] => cycle s
  | e :: rest => perform e { s with inbox := rest }

end Sys2Proof.Machine
end

