-- ==== Sys2Proof/Machine/Step.lean ====
section
/-! DEFINITION. One step of the machine: one event (spec/00_scope.md rules R5, R6), by default a STEP
(spec/30_encoding.md rule R71). -/

namespace Sys2Proof.Machine

/-- One step: the oldest waiting event, or one instruction cycle (notes/assumptions/1.md). -/
def step (s : State) : Host.Outcome State Fault Refusal := nextEvent s

/-- `s` with the instruction word of the low `nbits` bits of `w` where the next step fetches, and that step a STEP that is
not gated. It stands for the loader's work (R202; notes/assumptions/4.md). -/
def State.withFetchWord (s : State) (nbits w : Nat) : State := s.readyToFetch.storeAtPc (tableWord nbits w)

end Sys2Proof.Machine
end

