-- ==== Sys2Proof/Machine/Outputs.lean ====
section
/-! DEFINITION. The outputs of the CORE (spec/10_state.md rule R24): views of the state, and the two pulses of one event. -/

namespace Sys2Proof.Machine

/-- R170: the code of a fault cause. -/
def Cause.code : Cause → BitVec 3
  | .noFault => 0
  | .unknownOpcode => 1
  | .stackOverflow => 2
  | .stackUnderflow => 3
  | .memoryAddressOutOfRange => 4
  | .registerIndexOutOfRange => 5
  | .keyIndexOutOfRange => 6
  | .unsupportedSys => 7

/-- `disp_out`: the whole of `disp`. -/
def State.dispOut (s : State) : Grid := s.disp

/-- `st_out`: the value of `ST`. -/
def State.stOut (s : State) : Byte := s.st

/-- `halted_out`: `halted_for_key`. -/
def State.haltedOut (s : State) : Bool := s.haltedForKey

/-- `fault_out`: `fault_cause`. -/
def State.faultOut (s : State) : BitVec 3 := s.faultCause.code

/-- Whether the event that led from `s` to `t` pulsed `disp_changed`. -/
def dispChanged (s t : State) : Bool := t.dispChangedPulses == s.dispChangedPulses + 1

/-- Whether the event that led from `s` to `t` pulsed `unknown_opcode`. -/
def unknownOpcodePulsed (s t : State) : Bool := t.unknownOpcodePulses == s.unknownOpcodePulses + 1

end Sys2Proof.Machine
end

