-- ==== Sys2Proof/Safety.lean ====
section
/-! DEFINITION. The terms the statements use: the parts of the state and what a frame is, when a run has ended, and the
invariants of the machine. -/

namespace Sys2Proof.Machine

/-- One separately named piece of the state: the spec's (spec/10_state.md rule R10), then the model's own. -/
inductive Part where
  | reg (r : Nibble)
  | i
  | pc
  | sp
  | slot (k : Fin 16)
  | dt
  | st
  | key (k : Nibble)
  | halted
  | pending
  | pixel (row : Fin 32) (col : Fin 64)
  | fault
  | mem (a : Nat)
  | policy
  | inbox
  | evRand
  | randIndex
  | launch
  | dispPulses
  | unknownPulses
  deriving DecidableEq, Repr

/-- The part reads the same in both states; memory through the model's read of one byte. -/
def Part.same (p : Part) (s t : State) : Prop :=
  match p with
  | .reg r => t.getV r = s.getV r
  | .i => t.i = s.i
  | .pc => t.pc = s.pc
  | .sp => t.sp = s.sp
  | .slot k => t.stack[k.val] = s.stack[k.val]
  | .dt => t.dt = s.dt
  | .st => t.st = s.st
  | .key k => t.keyDown k = s.keyDown k
  | .halted => t.haltedForKey = s.haltedForKey
  | .pending => t.pendingKeyRegister = s.pendingKeyRegister
  | .pixel row col => t.disp.pixel row col = s.disp.pixel row col
  | .fault => t.faultCause = s.faultCause
  | .mem a => t.readByte a = s.readByte a
  | .policy => t.unknownPolicy = s.unknownPolicy
  | .inbox => t.inbox = s.inbox
  | .evRand => t.evRand = s.evRand
  | .randIndex => t.randIndex = s.randIndex
  | .launch => t.launch = s.launch
  | .dispPulses => t.dispChangedPulses = s.dispChangedPulses
  | .unknownPulses => t.unknownOpcodePulses = s.unknownOpcodePulses

/-- A frame: every part that `changed` does not name reads in `t` as in `s`. -/
def OnlyChanges (changed : Part → Prop) (s t : State) : Prop := ∀ p, ¬ changed p → p.same s t

/-- The instruction faults with this cause (R171): the next state latches it and reads as before everywhere else. -/
def FaultsWith (i : Instr) (c : Cause) (s : State) : Prop :=
  ∃ t, exec i s = .next t ∧ t.faultCause = c ∧ OnlyChanges (· = .fault) s t

/-- How an instruction that completes leaves `PC` (R72). -/
inductive PcRule where
  /-- `next`, `pc <- PC + 2`. -/
  | sequential
  /-- `skip` or `next`, as the instruction's condition says. -/
  | conditional
  /-- An explicit target. -/
  | target
  deriving DecidableEq, Repr

/-- R72: "The explicit ones are JP, CALL, RET and JP V0; the skipping ones are SE and SNE (both forms), SKP and SKNP; every
other kind ends in `next`". -/
def pcRule : Instr → PcRule
  | .jp _ => .target
  | .call _ => .target
  | .ret => .target
  | .jpV0 _ => .target
  | .seByte _ _ => .conditional
  | .sneByte _ _ => .conditional
  | .seReg _ _ => .conditional
  | .sneReg _ _ => .conditional
  | .skp _ => .conditional
  | .sknp _ => .conditional
  | .sys _ => .sequential
  | .cls => .sequential
  | .ldByte _ _ => .sequential
  | .addByte _ _ => .sequential
  | .ldReg _ _ => .sequential
  | .orReg _ _ => .sequential
  | .andReg _ _ => .sequential
  | .xorReg _ _ => .sequential
  | .addReg _ _ => .sequential
  | .sub _ _ => .sequential
  | .shr _ _ => .sequential
  | .subn _ _ => .sequential
  | .shl _ _ => .sequential
  | .ldI _ => .sequential
  | .rnd _ _ => .sequential
  | .drw _ _ _ => .sequential
  | .ldVxDT _ => .sequential
  | .ldVxK _ => .sequential
  | .ldDTVx _ => .sequential
  | .ldSTVx _ => .sequential
  | .addI _ => .sequential
  | .ldF _ => .sequential
  | .ldB _ => .sequential
  | .ldStore _ => .sequential
  | .ldLoad _ => .sequential

/-- R12's table: the instructions that write a flag to `VF`. -/
def writesFlag : Instr → Bool
  | .addReg _ _ => true
  | .sub _ _ => true
  | .shr _ _ => true
  | .subn _ _ => true
  | .shl _ _ => true
  | .drw _ _ _ => true
  | .addI _ => true
  | .sys _ => false
  | .cls => false
  | .ret => false
  | .jp _ => false
  | .call _ => false
  | .seByte _ _ => false
  | .sneByte _ _ => false
  | .seReg _ _ => false
  | .sneReg _ _ => false
  | .ldByte _ _ => false
  | .addByte _ _ => false
  | .ldReg _ _ => false
  | .orReg _ _ => false
  | .andReg _ _ => false
  | .xorReg _ _ => false
  | .ldI _ => false
  | .jpV0 _ => false
  | .rnd _ _ => false
  | .skp _ => false
  | .sknp _ => false
  | .ldVxDT _ => false
  | .ldVxK _ => false
  | .ldDTVx _ => false
  | .ldSTVx _ => false
  | .ldF _ => false
  | .ldB _ => false
  | .ldStore _ => false
  | .ldLoad _ => false

/-- The one register an instruction of R122 to R133 or R160 names as its destination. The block load writes registers too, but
names none of them (R145); LD Vx, K leaves the write to KEY_PRESS (R165). -/
def destination : Instr → Option Nibble
  | .ldByte x _ => some x
  | .addByte x _ => some x
  | .ldReg x _ => some x
  | .orReg x _ => some x
  | .andReg x _ => some x
  | .xorReg x _ => some x
  | .addReg x _ => some x
  | .sub x _ => some x
  | .shr x _ => some x
  | .subn x _ => some x
  | .shl x _ => some x
  | .rnd x _ => some x
  | .ldVxDT x => some x
  | .sys _ => none
  | .cls => none
  | .ret => none
  | .jp _ => none
  | .call _ => none
  | .seByte _ _ => none
  | .sneByte _ _ => none
  | .seReg _ _ => none
  | .sneReg _ _ => none
  | .ldI _ => none
  | .jpV0 _ => none
  | .drw _ _ _ => none
  | .skp _ => none
  | .sknp _ => none
  | .ldVxK _ => none
  | .ldDTVx _ => none
  | .ldSTVx _ => none
  | .addI _ => none
  | .ldF _ => none
  | .ldB _ => none
  | .ldStore _ => none
  | .ldLoad _ => none

/-- R170's table, the causes an instruction raises and the instructions that raise each. The two others, UnknownOpcode and the
fetch's MemoryAddressOutOfRange, belong to STEP. -/
def RaisedBy (c : Cause) (i : Instr) : Prop :=
  match c with
  | .noFault => False
  | .unknownOpcode => False
  | .stackOverflow => ∃ nnn, i = .call nnn
  | .stackUnderflow => i = .ret
  | .memoryAddressOutOfRange => (∃ x y n, i = .drw x y n) ∨ ∃ x, i = .ldB x
  | .registerIndexOutOfRange => ∃ x, i = .ldStore x ∨ i = .ldLoad x
  | .keyIndexOutOfRange => ∃ x, i = .skp x ∨ i = .sknp x
  | .unsupportedSys => ∃ nnn, i = .sys nnn

/-- The pixel at `row`, `col` is under a set bit of an `n`-byte sprite drawn at `(x, y)` (R152): bit `7 - j` of byte `k` falls
on row `(y + k) mod 32` and column `(x + j) mod 64`. -/
def SpriteCovers (byteAt : Nat → Byte) (n x y : Nat) (row : Fin 32) (col : Fin 64) : Prop :=
  ∃ k j, k < n ∧ j < 8 ∧ (byteAt k).getLsbD (7 - j) = true ∧ (y + k) % 32 = row.val ∧ (x + j) % 64 = col.val

/-- R204, decision D21: no fault, no key wait, and the word at `PC` is a JP to `PC`. -/
def State.ended (s : State) : Prop :=
  s.faultCause = .noFault ∧ s.haltedForKey = false ∧
    ∃ raw nnn, s.fetch = some raw ∧ decodeWord raw = .ok (.jp nnn) ∧ addrWord nnn = s.pc

/-- A safe run latches no fault (R172: "A faulted CORE is never in a final state"). -/
def State.safe (s : State) : Prop := s.faultCause = .noFault

/-- R13: the values `PC` can take, and R15 with R103: the return addresses the used stack slots can hold. -/
def PcBounded (s : State) : Prop :=
  s.pc.toNat ≤ 0x10FE ∧ ∀ k : Fin 16, k.val < s.sp.val → s.stack[k.val].toNat ≤ 0x1000

/-- The memory is in its canonical form. -/
def MemCanonical (s : State) : Prop := Memory.wf s.mem

end Sys2Proof.Machine
end

