-- ==== Sys2Proof/Certificates/Slice0/Obligations.lean ====
section
/-! DEFINITION. The statements about the CORE, from the numbered rules of spec/. A form such as `exec i s = .next t` says that
the instruction answers a next state; `OnlyChanges` is its frame (Sys2Proof/Safety.lean). Statements about one STEP are about
`cycle`, the model's STEP of R71, and those about an event are about its operation; that the machine's `step` performs them
is `StepPerformsOldestEvent` and `StepRunsDecodedInstruction`. -/

open Sys2Proof Sys2Proof.Machine

/-! ## Encoding -/

/-- One word of every kind, written out from the opcode map of spec/30_encoding.md section 3, and four unknown words of
spec/95_test_vectors.md section 2.7, decode as the map says. The opcode values are notes/assumptions/11.md. -/
def Obligations.SpecWordsDecode : Prop :=
  decodeWord 0x0123 = .ok (.sys 0x123) ∧ decodeWord 0x00E0 = .ok .cls ∧ decodeWord 0x00EE = .ok .ret ∧
  decodeWord 0x1204 = .ok (.jp 0x204) ∧ decodeWord 0x2ABC = .ok (.call 0xABC) ∧
  decodeWord 0x332A = .ok (.seByte 3 0x2A) ∧ decodeWord 0x432A = .ok (.sneByte 3 0x2A) ∧
  decodeWord 0x5120 = .ok (.seReg 1 2) ∧ decodeWord 0x6A7F = .ok (.ldByte 0xA 0x7F) ∧
  decodeWord 0x70FF = .ok (.addByte 0 0xFF) ∧ decodeWord 0x8120 = .ok (.ldReg 1 2) ∧
  decodeWord 0x8121 = .ok (.orReg 1 2) ∧ decodeWord 0x8122 = .ok (.andReg 1 2) ∧
  decodeWord 0x8123 = .ok (.xorReg 1 2) ∧ decodeWord 0x8124 = .ok (.addReg 1 2) ∧
  decodeWord 0x8125 = .ok (.sub 1 2) ∧ decodeWord 0x8126 = .ok (.shr 1 2) ∧ decodeWord 0x8127 = .ok (.subn 1 2) ∧
  decodeWord 0x812E = .ok (.shl 1 2) ∧ decodeWord 0x9120 = .ok (.sneReg 1 2) ∧
  decodeWord 0xA300 = .ok (.ldI 0x300) ∧ decodeWord 0xBFFF = .ok (.jpV0 0xFFF) ∧
  decodeWord 0xC10F = .ok (.rnd 1 0x0F) ∧ decodeWord 0xD125 = .ok (.drw 1 2 5) ∧
  decodeWord 0xE29E = .ok (.skp 2) ∧ decodeWord 0xE2A1 = .ok (.sknp 2) ∧ decodeWord 0xF607 = .ok (.ldVxDT 6) ∧
  decodeWord 0xF50A = .ok (.ldVxK 5) ∧ decodeWord 0xF515 = .ok (.ldDTVx 5) ∧ decodeWord 0xF518 = .ok (.ldSTVx 5) ∧
  decodeWord 0xF21E = .ok (.addI 2) ∧ decodeWord 0xF429 = .ok (.ldF 4) ∧ decodeWord 0xF033 = .ok (.ldB 0) ∧
  decodeWord 0xF155 = .ok (.ldStore 1) ∧ decodeWord 0xF265 = .ok (.ldLoad 2) ∧
  decodeWord 0x5121 = .error (.unknownOpcode 0x5121) ∧ decodeWord 0x8128 = .error (.unknownOpcode 0x8128) ∧
  decodeWord 0xE19F = .error (.unknownOpcode 0xE19F) ∧ decodeWord 0xF175 = .error (.unknownOpcode 0xF175)

/-- Decoding the encoding of a well-formed instruction gives it back, at every operand value, as a word and as bytes in
memory order with any bytes after them. -/
def Obligations.DecodeOfEncode : Prop :=
  ∀ (i : Instr) (rest : List Byte), i.wellFormed = true →
    decodeWord (encode i) = .ok i ∧ decode (encodeBytes i ++ rest) = .ok (i, rest)

/-- A word that decodes is the encoding of what it decodes to, and that is well-formed: no bit of a word is dropped. -/
def Obligations.EncodeOfDecode : Prop :=
  ∀ (raw : Word) (i : Instr), decodeWord raw = .ok i → encode i = raw ∧ i.wellFormed = true

/-- R64, R65: there are 35 rows, and no two match the same word; a word has the kind of a row exactly when `raw & mask` is the
row's template and the row does not exclude the word; a word that no row matches has none. That SYS excludes 0x00E0 and 0x00EE
is the spec's decision D6, the templates are its decision D7 (notes/assumptions/11.md, 15.md). -/
def Obligations.ClassifyByMaskAndTemplate : Prop :=
  opcodeMap.length = 35 ∧
  ∀ raw : Word,
    opcodeMap.Pairwise (fun a b => ¬ (a.matches raw = true ∧ b.matches raw = true)) ∧
    (∀ i, classify raw = some i ↔
      ∃ row ∈ opcodeMap, raw &&& row.mask = row.template ∧ raw ∉ row.excludes ∧ row.build raw = i) ∧
    (classify raw = none ↔ ∀ row ∈ opcodeMap, raw &&& row.mask = row.template → raw ∈ row.excludes)

/-- R67's table: the unknown words, group by group. The opcode values under it are general knowledge, the spec's decision D7
(notes/assumptions/11.md). -/
def Obligations.UnknownWordGroups : Prop :=
  ∀ raw : Word, classify raw = none ↔
    (fieldOp raw = 0x5 ∧ fieldN raw ≠ 0) ∨
    (fieldOp raw = 0x8 ∧ fieldN raw ∈ [0x8#4, 0x9#4, 0xA#4, 0xB#4, 0xC#4, 0xD#4, 0xF#4]) ∨
    (fieldOp raw = 0x9 ∧ fieldN raw ≠ 0) ∨
    (fieldOp raw = 0xE ∧ fieldKK raw ∉ [0x9E#8, 0xA1#8]) ∨
    (fieldOp raw = 0xF ∧
      fieldKK raw ∉ [0x07#8, 0x0A#8, 0x15#8, 0x18#8, 0x1E#8, 0x29#8, 0x33#8, 0x55#8, 0x65#8])

/-! ## The instruction cycle -/

/-- R43: the fetch reads the two bytes at `PC`, the one at the lower address as bits 15 to 8. -/
def Obligations.FetchIsBigEndian : Prop :=
  ∀ s : State, s.pc.toNat + 2 ≤ 4096 →
    ∃ raw, s.fetch = some raw ∧
      raw.toNat = (s.readByte s.pc.toNat).toNat * 256 + (s.readByte (s.pc.toNat + 1)).toNat

/-- A step runs the decoded instruction. The step adds nothing around `exec`: with no event waiting (the inbox is the model's,
notes/assumptions/1.md) and no gate closed, `step` at a state whose bytes at `PC` decode to `i` is `exec i` at that state. -/
def Obligations.StepRunsDecodedInstruction : Prop :=
  ∀ (s : State) (i : Instr), s.inbox = [] → s.faultCause = .noFault → s.haltedForKey = false →
    s.pc.toNat + 2 ≤ 4096 →
    decode [s.readByte s.pc.toNat, s.readByte (s.pc.toNat + 1)] = .ok (i, []) →
    step s = exec i s

/-- R71, R173: STEP. Gated by a latched fault or a key wait it changes nothing; else it fetches, and raises
`MemoryAddressOutOfRange` where `PC > 0x0FFE`; a word of no kind pulses `unknown_opcode` and under HALT raises
`UnknownOpcode`, under SKIP goes on two bytes further; any other word is executed. The gate is the spec's decision D2, the
range check its D8, the policy its D5 (notes/assumptions/15.md); the pulse is counted in a field of the model's
(notes/assumptions/7.md). -/
def Obligations.StepCycle : Prop :=
  ∀ s : State,
    ((s.faultCause ≠ .noFault ∨ s.haltedForKey = true) → cycle s = .next s) ∧
    (s.faultCause = .noFault → s.haltedForKey = false →
      (4096 < s.pc.toNat + 2 →
        ∃ t, cycle s = .next t ∧ t.faultCause = .memoryAddressOutOfRange ∧ OnlyChanges (· = .fault) s t) ∧
      (∀ raw, s.fetch = some raw →
        (classify raw = none →
          ∃ t, cycle s = .next t ∧ t.unknownOpcodePulses = s.unknownOpcodePulses + 1 ∧
            (s.unknownPolicy = .halt →
              t.faultCause = .unknownOpcode ∧ OnlyChanges (· ∈ [Part.fault, .unknownPulses]) s t) ∧
            (s.unknownPolicy = .skip →
              t.pc = s.pc + 2 ∧ OnlyChanges (· ∈ [Part.pc, .unknownPulses]) s t)) ∧
        (∀ i, classify raw = some i → cycle s = exec i s)))

/-- A word placed by `withFetchWord` is the instruction the very next step runs, in every state; the placing changes two
bytes, opens the gates and empties the inbox, and moves `PC` only where no fetch is in range (notes/assumptions/4.md). -/
def Obligations.PlacedWordRuns : Prop :=
  ∀ (s : State) (nbits w : Nat),
    (∀ i, decodeTableWord nbits w = some i → step (s.withFetchWord nbits w) = exec i (s.withFetchWord nbits w)) ∧
    (s.pc.toNat + 2 ≤ 4096 →
      (s.withFetchWord nbits w).pc = s.pc ∧
      OnlyChanges (· ∈ [Part.mem s.pc.toNat, .mem (s.pc.toNat + 1), .fault, .halted, .inbox]) s
        (s.withFetchWord nbits w))

/-- R5: an instruction's effect is a total function of the state: every instruction answers a next state in every state. -/
def Obligations.EveryInstructionAnswers : Prop :=
  ∀ (i : Instr) (s : State), ∃ t, exec i s = .next t

/-- R72: an instruction that completes leaves `PC` by the rule of its kind (the explicit targets are those of R101, R102, R103
and R108); one that faults leaves it alone, and so does a gated STEP. -/
def Obligations.ProgramCounterRule : Prop :=
  (∀ (i : Instr) (s t : State), s.faultCause = .noFault → exec i s = .next t →
    (t.faultCause ≠ .noFault → t.pc = s.pc) ∧
    (t.faultCause = .noFault →
      (pcRule i = .sequential → t.pc = s.pc + 2) ∧
      (pcRule i = .conditional → t.pc = s.pc + 2 ∨ t.pc = s.pc + 4))) ∧
  (∀ s t : State, cycle s = .next t →
    s.faultCause ≠ .noFault ∨ s.haltedForKey = true ∨ t.faultCause ≠ .noFault → t.pc = s.pc)

/-! ## Events and reset -/

/-- R184: TICK lowers each timer that is not zero by exactly 1 and changes nothing else. That it does so in a faulted and in a
waiting state too is the spec's decision D17 (notes/assumptions/15.md). -/
def Obligations.TickCountsDown : Prop :=
  ∀ s : State,
    (tick s).dt.toNat = s.dt.toNat - 1 ∧ (tick s).st.toNat = s.st.toNat - 1 ∧
      OnlyChanges (· ∈ [Part.dt, .st]) s (tick s)

/-- R185: KEY_PRESS(k) sets the key; during a key wait it also writes `k` to the pending register and ends the wait; nothing
else changes. -/
def Obligations.KeyPressEvent : Prop :=
  ∀ (k : Nibble) (s : State),
    (keyPress k s).keyDown k = true ∧
    (s.haltedForKey = false → OnlyChanges (· = .key k) s (keyPress k s)) ∧
    (s.haltedForKey = true →
      ((keyPress k s).getV s.pendingKeyRegister).toNat = k.toNat ∧ (keyPress k s).haltedForKey = false ∧
        OnlyChanges (· ∈ [Part.key k, .reg s.pendingKeyRegister, .halted]) s (keyPress k s))

/-- R186: KEY_RELEASE(k) clears the key and nothing else. -/
def Obligations.KeyReleaseEvent : Prop :=
  ∀ (k : Nibble) (s : State), (keyRelease k s).keyDown k = false ∧ OnlyChanges (· = .key k) s (keyRelease k s)

/-- R25: the value of every piece of state after RESET, with nothing loaded. All but those of `PC`, `SP` and the font are the
spec's decisions D13 and D3 (notes/assumptions/10.md); that the bytes from 0x050 on hold no stated value is R202
(notes/assumptions/3.md). -/
def Obligations.ResetValues : Prop :=
  State.reset.pc = 0x0200 ∧ State.reset.sp.val = 0 ∧ (∀ k : Fin 16, State.reset.stack[k.val] = 0) ∧
  (∀ x, State.reset.getV x = 0) ∧ State.reset.i = 0 ∧ State.reset.dt = 0 ∧ State.reset.st = 0 ∧
  (∀ k, State.reset.keyDown k = false) ∧ State.reset.haltedForKey = false ∧ State.reset.pendingKeyRegister = 0 ∧
  (∀ row col, State.reset.disp.pixel row col = false) ∧ State.reset.faultCause = .noFault ∧
  (∀ a : Fin 80, Memory.byte? State.reset.mem a.val = fontTable[a.val]?) ∧
  (∀ a, 0x050 ≤ a → Memory.byte? State.reset.mem a = none)

/-- R42: the conventional digit sprites, the glyph of digit `d` at `5 * d`. The bytes are general knowledge, the spec's
decision D22 (notes/assumptions/12.md). -/
def Obligations.FontGlyphs : Prop :=
  let glyph := fun d => State.reset.readBytes (5 * d) 5
  glyph 0x0 = [0xF0, 0x90, 0x90, 0x90, 0xF0] ∧ glyph 0x1 = [0x20, 0x60, 0x20, 0x20, 0x70] ∧
  glyph 0x2 = [0xF0, 0x10, 0xF0, 0x80, 0xF0] ∧ glyph 0x3 = [0xF0, 0x10, 0xF0, 0x10, 0xF0] ∧
  glyph 0x4 = [0x90, 0x90, 0xF0, 0x10, 0x10] ∧ glyph 0x5 = [0xF0, 0x80, 0xF0, 0x10, 0xF0] ∧
  glyph 0x6 = [0xF0, 0x80, 0xF0, 0x90, 0xF0] ∧ glyph 0x7 = [0xF0, 0x10, 0x20, 0x40, 0x40] ∧
  glyph 0x8 = [0xF0, 0x90, 0xF0, 0x90, 0xF0] ∧ glyph 0x9 = [0xF0, 0x90, 0xF0, 0x10, 0xF0] ∧
  glyph 0xA = [0xF0, 0x90, 0xF0, 0x90, 0x90] ∧ glyph 0xB = [0xE0, 0x90, 0xE0, 0x90, 0xE0] ∧
  glyph 0xC = [0xF0, 0x80, 0x80, 0x80, 0xF0] ∧ glyph 0xD = [0xE0, 0x90, 0x90, 0x90, 0xE0] ∧
  glyph 0xE = [0xF0, 0x80, 0xF0, 0x80, 0xF0] ∧ glyph 0xF = [0xF0, 0x80, 0xF0, 0x80, 0x80]

/-- R200, R202: the RESET event, from any state and with any image in the range of `MEM_INIT` (R4, R41), gives the reset values
(most of them the spec's decision D13, notes/assumptions/10.md), the font below 0x050, at each address the image names the byte
of its last pair there (the model's choice, notes/assumptions/5.md), and no stated byte elsewhere; a program image lies verbatim
from 0x200. What becomes of the launch parameter and of the model's own fields is the model's choice
(notes/assumptions/6.md, 8.md). -/
def Obligations.ResetEvent : Prop :=
  (∀ (image : List Host.Cell) (s : State), (∀ c ∈ image, 0x050 ≤ c.1 ∧ c.1 < 4096) →
    ∃ t, perform (.reset image) s = .next t ∧
      t.pc = 0x0200 ∧ t.sp.val = 0 ∧ t.i = 0 ∧ t.dt = 0 ∧ t.st = 0 ∧ (∀ x, t.getV x = 0) ∧
      (∀ k : Fin 16, t.stack[k.val] = 0) ∧ (∀ k, t.keyDown k = false) ∧ t.haltedForKey = false ∧
      t.pendingKeyRegister = 0 ∧ (∀ row col, t.disp.pixel row col = false) ∧ t.faultCause = .noFault ∧
      (∀ a : Fin 80, Memory.byte? t.mem a.val = fontTable[a.val]?) ∧
      (∀ (before after : List Host.Cell) (a : Nat) (b : Byte), image = before ++ (a, b) :: after →
        (∀ c ∈ after, c.1 ≠ a) → t.readByte a = b) ∧
      (∀ a, 0x050 ≤ a → (∀ c ∈ image, c.1 ≠ a) → Memory.byte? t.mem a = none) ∧
      t.unknownPolicy = s.unknownPolicy ∧ t.inbox = s.inbox ∧ t.evRand = none ∧ t.randIndex = s.randIndex ∧
      t.launch = s.launch + 1 ∧ t.dispChangedPulses = s.dispChangedPulses ∧
      t.unknownOpcodePulses = s.unknownOpcodePulses) ∧
  (∀ (program : List Byte) (s : State), program.length ≤ 3584 →
    ∃ t, perform (.reset (programImage program)) s = .next t ∧
      (∀ k (h : k < program.length), t.readByte (0x200 + k) = program[k]) ∧
      (∀ a, 0x050 ≤ a → (a < 0x200 ∨ 0x200 + program.length ≤ a) → Memory.byte? t.mem a = none))

/-- R5, R6: one step performs the oldest waiting event to completion and takes it from the inbox (the model's,
notes/assumptions/1.md); STEP(r) is one cycle whose random byte is `r`, and RESET is the event of `ResetEvent`. -/
def Obligations.StepPerformsOldestEvent : Prop :=
  ∀ (s : State) (rest : List Event),
    (s.inbox = [] → step s = cycle s) ∧
    (∀ image, s.inbox = .reset image :: rest → step s = perform (.reset image) { s with inbox := rest }) ∧
    (s.inbox = .tick :: rest → step s = .next (tick { s with inbox := rest })) ∧
    (∀ k, s.inbox = .keyPress k :: rest → step s = .next (keyPress k { s with inbox := rest })) ∧
    (∀ k, s.inbox = .keyRelease k :: rest → step s = .next (keyRelease k { s with inbox := rest })) ∧
    (∀ r t, s.inbox = .step r :: rest → cycle { s with inbox := rest, evRand := some r } = .next t →
      step s = .next { t with evRand := none })

/-- A step always answers a next state, but for a RESET whose image names an address outside 0x050 to 0xFFF, which is
refused by name (notes/assumptions/5.md). -/
def Obligations.StepStopsOnlyOnBadImage : Prop :=
  ∀ s : State,
    ((∃ t, step s = .next t) ∨ step s = .refused .imageOutsideMemory) ∧
    (step s = .refused .imageOutsideMemory ↔
      ∃ image rest, s.inbox = .reset image :: rest ∧ ∃ c ∈ image, c.1 < 0x050 ∨ 4096 ≤ c.1)

/-- R170: the numbers of the fault causes on `fault_out`, which no two causes share. They are the spec's decision D4
(notes/assumptions/15.md). -/
def Obligations.FaultCodes : Prop :=
  (∀ s : State, s.faultOut.toNat =
    (match s.faultCause with
      | .noFault => 0
      | .unknownOpcode => 1
      | .stackOverflow => 2
      | .stackUnderflow => 3
      | .memoryAddressOutOfRange => 4
      | .registerIndexOutOfRange => 5
      | .keyIndexOutOfRange => 6
      | .unsupportedSys => 7)) ∧
  ∀ s t : State, s.faultOut = t.faultOut ↔ s.faultCause = t.faultCause

/-! ## Control flow -/

/-- R100, R178: SYS always raises `UnsupportedSys`, code 7; nothing else is written and `PC` stays. The fault, and the words
SYS leaves to CLS and RET, are the spec's decision D6 (notes/assumptions/15.md). -/
def Obligations.SysFaults : Prop :=
  ∀ (nnn : Addr) (s : State),
    (nnn ≠ 0x0E0 → nnn ≠ 0x0EE → decodeWord (encNNN 0x0 nnn) = .ok (.sys nnn)) ∧
    ∃ t, exec (.sys nnn) s = .next t ∧ t.faultCause = .unsupportedSys ∧ t.faultOut = 7 ∧ t.pc = s.pc ∧
      OnlyChanges (· = .fault) s t

/-- R101: RET pops its target, the slot keeping its contents, or raises `StackUnderflow`. -/
def Obligations.RetPops : Prop :=
  ∀ s : State,
    decodeWord 0x00EE = .ok .ret ∧
    (∀ h : 0 < s.sp.val,
      ∃ t, exec .ret s = .next t ∧ t.pc = s.stack[s.sp.val - 1]'(by have := s.sp.isLt; omega) ∧
        t.sp.val = s.sp.val - 1 ∧ OnlyChanges (· ∈ [Part.pc, .sp]) s t) ∧
    (s.sp.val = 0 → FaultsWith .ret .stackUnderflow s)

/-- R102: JP addr. -/
def Obligations.JpSetsPc : Prop :=
  ∀ (nnn : Addr) (s : State),
    decodeWord (encNNN 0x1 nnn) = .ok (.jp nnn) ∧
    ∃ t, exec (.jp nnn) s = .next t ∧ t.pc.toNat = nnn.toNat ∧ OnlyChanges (· = .pc) s t

/-- R103: CALL addr pushes `PC + 2`, or raises `StackOverflow`; a call followed at once by a return leaves `PC` where it would
have been had the call never been, and the stack pointer as it was. -/
def Obligations.CallPushes : Prop :=
  ∀ (nnn : Addr) (s : State),
    decodeWord (encNNN 0x2 nnn) = .ok (.call nnn) ∧
    (∀ h : s.sp.val < 16,
      ∃ t, exec (.call nnn) s = .next t ∧ t.stack[s.sp.val] = s.pc + 2 ∧ t.sp.val = s.sp.val + 1 ∧
        t.pc.toNat = nnn.toNat ∧ OnlyChanges (· ∈ [Part.slot ⟨s.sp.val, h⟩, .sp, .pc]) s t) ∧
    (∀ h : s.sp.val < 16, ∃ t u, exec (.call nnn) s = .next t ∧ exec .ret t = .next u ∧ u.pc = s.pc + 2 ∧
      OnlyChanges (· ∈ [Part.slot ⟨s.sp.val, h⟩, .pc]) s u) ∧
    (s.sp.val = 16 → FaultsWith (.call nnn) .stackOverflow s)

/-- R104, R105: the skips on a byte. -/
def Obligations.SkipsOnByte : Prop :=
  ∀ (x : Nibble) (kk : Byte) (s : State),
    decodeWord (encXKK 0x3 x kk) = .ok (.seByte x kk) ∧ decodeWord (encXKK 0x4 x kk) = .ok (.sneByte x kk) ∧
    (∃ t, exec (.seByte x kk) s = .next t ∧ (s.getV x = kk → t.pc = s.pc + 4) ∧
      (s.getV x ≠ kk → t.pc = s.pc + 2) ∧ OnlyChanges (· = .pc) s t) ∧
    (∃ t, exec (.sneByte x kk) s = .next t ∧ (s.getV x ≠ kk → t.pc = s.pc + 4) ∧
      (s.getV x = kk → t.pc = s.pc + 2) ∧ OnlyChanges (· = .pc) s t)

/-- R106, R107: the skips on two registers; with `x = y` SE always skips and SNE never does. -/
def Obligations.SkipsOnRegisters : Prop :=
  ∀ (x y : Nibble) (s : State),
    decodeWord (encXYN 0x5 x y 0x0) = .ok (.seReg x y) ∧ decodeWord (encXYN 0x9 x y 0x0) = .ok (.sneReg x y) ∧
    (∃ t, exec (.seReg x y) s = .next t ∧ (s.getV x = s.getV y → t.pc = s.pc + 4) ∧
      (s.getV x ≠ s.getV y → t.pc = s.pc + 2) ∧ (x = y → t.pc = s.pc + 4) ∧ OnlyChanges (· = .pc) s t) ∧
    (∃ t, exec (.sneReg x y) s = .next t ∧ (s.getV x ≠ s.getV y → t.pc = s.pc + 4) ∧
      (s.getV x = s.getV y → t.pc = s.pc + 2) ∧ (x = y → t.pc = s.pc + 2) ∧ OnlyChanges (· = .pc) s t)

/-- R108: JP V0, addr. That the sum is neither masked to 12 bits nor wrapped is the spec's decision D19
(notes/assumptions/15.md). -/
def Obligations.JpV0AddsV0 : Prop :=
  ∀ (nnn : Addr) (s : State),
    decodeWord (encNNN 0xB nnn) = .ok (.jpV0 nnn) ∧
    ∃ t, exec (.jpV0 nnn) s = .next t ∧ t.pc.toNat = nnn.toNat + (s.getV 0).toNat ∧ OnlyChanges (· = .pc) s t

/-! ## Register load, ALU, random -/

/-- R122, R124: LD Vx, byte and LD Vx, Vy. -/
def Obligations.RegisterLoads : Prop :=
  ∀ (x y : Nibble) (kk : Byte) (s : State),
    decodeWord (encXKK 0x6 x kk) = .ok (.ldByte x kk) ∧ decodeWord (encXYN 0x8 x y 0x0) = .ok (.ldReg x y) ∧
    (∃ t, exec (.ldByte x kk) s = .next t ∧ t.getV x = kk ∧ t.pc = s.pc + 2 ∧
      OnlyChanges (· ∈ [Part.reg x, .pc]) s t) ∧
    (∃ t, exec (.ldReg x y) s = .next t ∧ t.getV x = s.getV y ∧ t.pc = s.pc + 2 ∧
      OnlyChanges (· ∈ [Part.reg x, .pc]) s t)

/-- R123, R125, R126, R127: ADD Vx, byte (mod 256) and OR, AND, XOR, bit by bit. That none of them writes `VF` unless it is
the destination is the spec's decision D12 (notes/assumptions/15.md). -/
def Obligations.AddByteAndBitwise : Prop :=
  ∀ (x y : Nibble) (kk : Byte) (s : State),
    decodeWord (encXKK 0x7 x kk) = .ok (.addByte x kk) ∧ decodeWord (encXYN 0x8 x y 0x1) = .ok (.orReg x y) ∧
    decodeWord (encXYN 0x8 x y 0x2) = .ok (.andReg x y) ∧ decodeWord (encXYN 0x8 x y 0x3) = .ok (.xorReg x y) ∧
    (∃ t, exec (.addByte x kk) s = .next t ∧ (t.getV x).toNat = ((s.getV x).toNat + kk.toNat) % 256 ∧
      t.pc = s.pc + 2 ∧ OnlyChanges (· ∈ [Part.reg x, .pc]) s t) ∧
    (∃ t, exec (.orReg x y) s = .next t ∧
      (∀ b, (t.getV x).getLsbD b = ((s.getV x).getLsbD b || (s.getV y).getLsbD b)) ∧
      t.pc = s.pc + 2 ∧ OnlyChanges (· ∈ [Part.reg x, .pc]) s t) ∧
    (∃ t, exec (.andReg x y) s = .next t ∧
      (∀ b, (t.getV x).getLsbD b = ((s.getV x).getLsbD b && (s.getV y).getLsbD b)) ∧
      t.pc = s.pc + 2 ∧ OnlyChanges (· ∈ [Part.reg x, .pc]) s t) ∧
    (∃ t, exec (.xorReg x y) s = .next t ∧
      (∀ b, (t.getV x).getLsbD b = ((s.getV x).getLsbD b ^^ (s.getV y).getLsbD b)) ∧
      t.pc = s.pc + 2 ∧ OnlyChanges (· ∈ [Part.reg x, .pc]) s t)

/-- R128, R129: ADD Vx, Vy with its carry and SUB with its not-borrow, 1 for equal operands. Where `x` is 0xF the flag, written
last, is the one kept (the spec's decision D11, notes/assumptions/15.md). -/
def Obligations.AddAndSubtract : Prop :=
  ∀ (x y : Nibble) (s : State),
    decodeWord (encXYN 0x8 x y 0x4) = .ok (.addReg x y) ∧ decodeWord (encXYN 0x8 x y 0x5) = .ok (.sub x y) ∧
    (∃ t, exec (.addReg x y) s = .next t ∧
      (x ≠ 0xF → (t.getV x).toNat = ((s.getV x).toNat + (s.getV y).toNat) % 256) ∧
      (t.getV 0xF).toNat = (if 255 < (s.getV x).toNat + (s.getV y).toNat then 1 else 0) ∧
      t.pc = s.pc + 2 ∧ OnlyChanges (· ∈ [Part.reg x, .reg 0xF, .pc]) s t) ∧
    (∃ t, exec (.sub x y) s = .next t ∧
      (x ≠ 0xF → (t.getV x).toNat = ((s.getV x).toNat + 256 - (s.getV y).toNat) % 256) ∧
      (t.getV 0xF).toNat = (if (s.getV y).toNat ≤ (s.getV x).toNat then 1 else 0) ∧
      t.pc = s.pc + 2 ∧ OnlyChanges (· ∈ [Part.reg x, .reg 0xF, .pc]) s t)

/-- R131: SUBN. The flag is not-borrow of `V[y] - V[x]`; its 0 case is an inference the spec marks as derived, and that it is
kept where `x` is 0xF is the spec's decision D11 (notes/assumptions/15.md). -/
def Obligations.SubtractReversed : Prop :=
  ∀ (x y : Nibble) (s : State),
    decodeWord (encXYN 0x8 x y 0x7) = .ok (.subn x y) ∧
    ∃ t, exec (.subn x y) s = .next t ∧
      (x ≠ 0xF → (t.getV x).toNat = ((s.getV y).toNat + 256 - (s.getV x).toNat) % 256) ∧
      (t.getV 0xF).toNat = (if (s.getV x).toNat ≤ (s.getV y).toNat then 1 else 0) ∧
      t.pc = s.pc + 2 ∧ OnlyChanges (· ∈ [Part.reg x, .reg 0xF, .pc]) s t

/-- R130, R132: SHR and SHL shift `V[x]` in place by one bit, whatever `y` is; `VF` is the bit shifted out. That the flag is
the one kept where `x` is 0xF is the spec's decision D11 (notes/assumptions/15.md). -/
def Obligations.Shifts : Prop :=
  ∀ (x y : Nibble) (s : State),
    decodeWord (encXYN 0x8 x y 0x6) = .ok (.shr x y) ∧ decodeWord (encXYN 0x8 x y 0xE) = .ok (.shl x y) ∧
    (∃ t, exec (.shr x y) s = .next t ∧ (x ≠ 0xF → (t.getV x).toNat = (s.getV x).toNat / 2) ∧
      (t.getV 0xF).toNat = (s.getV x).toNat % 2 ∧
      t.pc = s.pc + 2 ∧ OnlyChanges (· ∈ [Part.reg x, .reg 0xF, .pc]) s t) ∧
    (∃ t, exec (.shl x y) s = .next t ∧ (x ≠ 0xF → (t.getV x).toNat = (s.getV x).toNat * 2 % 256) ∧
      (t.getV 0xF).toNat = (s.getV x).toNat / 128 ∧
      t.pc = s.pc + 2 ∧ OnlyChanges (· ∈ [Part.reg x, .reg 0xF, .pc]) s t)

/-- R133: RND of a STEP whose random byte is `r`; the port that holds it is a field of the model's (notes/assumptions/2.md).
-/
def Obligations.RandomAndMask : Prop :=
  ∀ (x : Nibble) (kk r : Byte) (s : State), s.evRand = some r →
    decodeWord (encXKK 0xC x kk) = .ok (.rnd x kk) ∧
    ∃ t, exec (.rnd x kk) s = .next t ∧ t.getV x = r &&& kk ∧ t.evRand = none ∧ t.pc = s.pc + 2 ∧
      OnlyChanges (· ∈ [Part.reg x, .pc, .evRand]) s t

/-- RND of a STEP for which the host stated no random byte: it runs, on a free byte about which nothing is known
(notes/assumptions/2.md), and the next one is another free byte; bits where `kk` is 0 are 0. -/
def Obligations.RandomIsFree : Prop :=
  ∀ (x : Nibble) (kk : Byte) (s : State), s.evRand = none →
    ∃ t, exec (.rnd x kk) s = .next t ∧ t.getV x = s.randomInput &&& kk ∧
      (∀ b, kk.getLsbD b = false → (t.getV x).getLsbD b = false) ∧ t.randIndex ≠ s.randIndex ∧
      t.pc = s.pc + 2 ∧ OnlyChanges (· ∈ [Part.reg x, .pc, .randIndex]) s t

/-! ## Index register and memory -/

/-- R140: LD I, addr. That Annn is this instruction is general knowledge, as the spec says (notes/assumptions/11.md). -/
def Obligations.LoadIndex : Prop :=
  ∀ (nnn : Addr) (s : State),
    decodeWord (encNNN 0xA nnn) = .ok (.ldI nnn) ∧
    ∃ t, exec (.ldI nnn) s = .next t ∧ t.i.toNat = nnn.toNat ∧ t.pc = s.pc + 2 ∧
      OnlyChanges (· ∈ [Part.i, .pc]) s t

/-- R141, R142: ADD I, Vx and LD F, Vx. The flag tests the sum against 0x0FFF. That `I` wraps at 16 bits and that the whole of
`V[x]` is multiplied by 5 is the spec's decision D19; that the old `VF` is the addend where `x` is 0xF is its decision D11
(notes/assumptions/15.md). -/
def Obligations.IndexArithmetic : Prop :=
  ∀ (x : Nibble) (s : State),
    decodeWord (encXKK 0xF x 0x1E) = .ok (.addI x) ∧ decodeWord (encXKK 0xF x 0x29) = .ok (.ldF x) ∧
    (∃ t, exec (.addI x) s = .next t ∧ t.i.toNat = (s.i.toNat + (s.getV x).toNat) % 65536 ∧
      (t.getV 0xF).toNat = (if 0x0FFF < s.i.toNat + (s.getV x).toNat then 1 else 0) ∧
      t.pc = s.pc + 2 ∧ OnlyChanges (· ∈ [Part.i, .reg 0xF, .pc]) s t) ∧
    (∃ t, exec (.ldF x) s = .next t ∧ t.i.toNat = (s.getV x).toNat * 5 ∧ t.pc = s.pc + 2 ∧
      OnlyChanges (· ∈ [Part.i, .pc]) s t)

/-- R143: LD B, Vx, the three decimal digits. The range check and its fault are the spec's decision D8
(notes/assumptions/15.md). -/
def Obligations.DecimalStore : Prop :=
  ∀ (x : Nibble) (s : State),
    decodeWord (encXKK 0xF x 0x33) = .ok (.ldB x) ∧
    (s.i.toNat + 3 ≤ 4096 →
      ∃ t, exec (.ldB x) s = .next t ∧
        (t.readByte s.i.toNat).toNat = (s.getV x).toNat / 100 ∧
        (t.readByte (s.i.toNat + 1)).toNat = (s.getV x).toNat / 10 % 10 ∧
        (t.readByte (s.i.toNat + 2)).toNat = (s.getV x).toNat % 10 ∧ t.pc = s.pc + 2 ∧
        OnlyChanges (· ∈ [Part.mem s.i.toNat, .mem (s.i.toNat + 1), .mem (s.i.toNat + 2), .pc]) s t) ∧
    (4096 < s.i.toNat + 3 → FaultsWith (.ldB x) .memoryAddressOutOfRange s)

/-- R144: LD [I], Vx, literal: `I` is the base into the register file and into memory. The fault is the spec's decision D9
(notes/assumptions/15.md). -/
def Obligations.BlockStore : Prop :=
  ∀ (x : Nibble) (s : State),
    decodeWord (encXKK 0xF x 0x55) = .ok (.ldStore x) ∧
    (s.i.toNat + x.toNat ≤ 15 →
      ∃ t, exec (.ldStore x) s = .next t ∧
        (∀ r : Nibble, s.i.toNat ≤ r.toNat → r.toNat ≤ s.i.toNat + x.toNat → t.readByte r.toNat = s.getV r) ∧
        t.i.toNat = s.i.toNat + x.toNat + 1 ∧ t.pc = s.pc + 2 ∧
        OnlyChanges (fun p => (∃ a, p = .mem a ∧ s.i.toNat ≤ a ∧ a ≤ s.i.toNat + x.toNat) ∨ p ∈ [Part.i, .pc]) s t) ∧
    (15 < s.i.toNat + x.toNat → FaultsWith (.ldStore x) .registerIndexOutOfRange s)

/-- R145: LD Vx, [I], with the same literal addressing; the registers loaded are `V[I]` to `V[I+x]`. The fault is the spec's
decision D9 (notes/assumptions/15.md). -/
def Obligations.BlockLoad : Prop :=
  ∀ (x : Nibble) (s : State),
    decodeWord (encXKK 0xF x 0x65) = .ok (.ldLoad x) ∧
    (s.i.toNat + x.toNat ≤ 15 →
      ∃ t, exec (.ldLoad x) s = .next t ∧
        (∀ r : Nibble, s.i.toNat ≤ r.toNat → r.toNat ≤ s.i.toNat + x.toNat → t.getV r = s.readByte r.toNat) ∧
        t.i.toNat = s.i.toNat + x.toNat + 1 ∧ t.pc = s.pc + 2 ∧
        OnlyChanges
          (fun p => (∃ r : Nibble, p = .reg r ∧ s.i.toNat ≤ r.toNat ∧ r.toNat ≤ s.i.toNat + x.toNat) ∨
            p ∈ [Part.i, .pc]) s t) ∧
    (15 < s.i.toNat + x.toNat → FaultsWith (.ldLoad x) .registerIndexOutOfRange s)

/-- The store of several bytes, read back: inside the stored range the bytes stored, elsewhere what was there (R49, R55). With no
byte nothing is accessed and nothing is checked (R55). Out of range nothing is stored: the spec's decision D8
(notes/assumptions/15.md). -/
def Obligations.StoreThenRead : Prop :=
  ∀ (s : State) (a : Nat) (bytes : List Byte),
    (bytes = [] ∨ a + bytes.length ≤ 4096 →
      ∃ t, s.memWrite a bytes = some t ∧ t.memRead a bytes.length = some bytes ∧
        OnlyChanges (fun p => ∃ c, p = .mem c ∧ a ≤ c ∧ c < a + bytes.length) s t) ∧
    (bytes ≠ [] → 4096 < a + bytes.length → s.memWrite a bytes = none ∧ s.memRead a bytes.length = none)

/-- R51, which the spec marks as derived: a store over the next instruction is what the very next fetch reads. LD B with `I =
PC + 2` leaves a fetch of the hundreds and tens digits. -/
def Obligations.StoreSeenByNextFetch : Prop :=
  ∀ (x : Nibble) (s : State), s.i = s.pc + 2 → s.pc.toNat + 5 ≤ 4096 →
    ∃ t raw, exec (.ldB x) s = .next t ∧ t.fetch = some raw ∧
      raw.toNat = (s.getV x).toNat / 100 * 256 + (s.getV x).toNat / 10 % 10

/-! ## Display -/

/-- R150: CLS. The pulse of `disp_changed` is counted in a field of the model's (notes/assumptions/7.md). -/
def Obligations.ClsClears : Prop :=
  ∀ s : State,
    decodeWord 0x00E0 = .ok .cls ∧
    ∃ t, exec .cls s = .next t ∧ (∀ row col, t.disp.pixel row col = false) ∧
      t.dispChangedPulses = s.dispChangedPulses + 1 ∧ t.pc = s.pc + 2 ∧
      OnlyChanges (fun p => (∃ row col, p = .pixel row col) ∨ p ∈ [Part.dispPulses, .pc]) s t

/-- R151: DRW Vx, Vy, n, on the machine: which pixels flip, what `VF` says, what else changes, and when it faults. That byte
`k` goes on row `y + k` and that `n = 0` cannot fault is the spec's decision D16, the range check its D8, an old `VF` as a
coordinate its D11 (notes/assumptions/15.md); the pulse is counted in a field of the model's (notes/assumptions/7.md). -/
def Obligations.DrwDraws : Prop :=
  ∀ (x y n : Nibble) (s : State),
    let covers := SpriteCovers (fun k => s.readByte (s.i.toNat + k)) n.toNat (s.getV x).toNat (s.getV y).toNat
    decodeWord (encXYN 0xD x y n) = .ok (.drw x y n) ∧
    ((n = 0 ∨ s.i.toNat + n.toNat ≤ 4096) →
      ∃ t, exec (.drw x y n) s = .next t ∧
        (∀ row col, t.disp.pixel row col ≠ s.disp.pixel row col ↔ covers row col) ∧
        ((∃ row col, covers row col ∧ s.disp.pixel row col = true) → t.getV 0xF = 1) ∧
        ((¬ ∃ row col, covers row col ∧ s.disp.pixel row col = true) → t.getV 0xF = 0) ∧
        t.dispChangedPulses = s.dispChangedPulses + 1 ∧ t.pc = s.pc + 2 ∧
        OnlyChanges (fun p => (∃ row col, p = .pixel row col) ∨ p ∈ [Part.reg 0xF, .dispPulses, .pc]) s t) ∧
    (n ≠ 0 → 4096 < s.i.toNat + n.toNat → FaultsWith (.drw x y n) .memoryAddressOutOfRange s)

/-- R152, R154: a draw of at most 32 rows flips exactly the pixels under a set bit, wrapping on both axes; `clear` leaves
every pixel unset. That byte `k` goes on row `y + k` is the spec's decision D16 (notes/assumptions/15.md). -/
def Obligations.DrawFlipsCoveredPixels : Prop :=
  (∀ row col, Grid.clear.pixel row col = false) ∧
  ∀ (bytes : List Byte) (x y : Nat) (d : Grid) (row : Fin 32) (col : Fin 64), bytes.length ≤ 32 →
    ((draw bytes x y d).1.pixel row col ≠ d.pixel row col ↔
      SpriteCovers (fun k => bytes.getD k 0) bytes.length x y row col)

/-- R153: `collided` exactly when some pixel went from set to unset during this draw. -/
def Obligations.CollisionIsSetToUnset : Prop :=
  ∀ (bytes : List Byte) (x y : Nat) (d : Grid), bytes.length ≤ 32 →
    ((draw bytes x y d).2 = true ↔
      ∃ row col, d.pixel row col = true ∧ (draw bytes x y d).1.pixel row col = false)

/-- R155: the same sprite drawn twice at the same coordinates restores the buffer exactly; into an empty region the first draw
reports no collision, and the second reports one exactly when the sprite has a set bit (the clause the spec marks as derived
from R152 and R153). -/
def Obligations.DrawTwiceRestores : Prop :=
  ∀ (bytes : List Byte) (x y : Nat) (d : Grid), bytes.length ≤ 32 →
    (draw bytes x y (draw bytes x y d).1).1 = d ∧
    ((∀ row col, SpriteCovers (fun k => bytes.getD k 0) bytes.length x y row col → d.pixel row col = false) →
      (draw bytes x y d).2 = false ∧
      ((draw bytes x y (draw bytes x y d).1).2 = true ↔ ∃ b ∈ bytes, b ≠ 0))

/-! ## Timers and keys -/

/-- R160, R161, R162: the timer loads. That these opcodes exist with these meanings is general knowledge, as R166 says
(notes/assumptions/11.md). -/
def Obligations.TimerLoads : Prop :=
  ∀ (x : Nibble) (s : State),
    decodeWord (encXKK 0xF x 0x07) = .ok (.ldVxDT x) ∧ decodeWord (encXKK 0xF x 0x15) = .ok (.ldDTVx x) ∧
    decodeWord (encXKK 0xF x 0x18) = .ok (.ldSTVx x) ∧
    (∃ t, exec (.ldVxDT x) s = .next t ∧ t.getV x = s.dt ∧ t.pc = s.pc + 2 ∧
      OnlyChanges (· ∈ [Part.reg x, .pc]) s t) ∧
    (∃ t, exec (.ldDTVx x) s = .next t ∧ t.dt = s.getV x ∧ t.pc = s.pc + 2 ∧
      OnlyChanges (· ∈ [Part.dt, .pc]) s t) ∧
    (∃ t, exec (.ldSTVx x) s = .next t ∧ t.st = s.getV x ∧ t.stOut = s.getV x ∧ t.pc = s.pc + 2 ∧
      OnlyChanges (· ∈ [Part.st, .pc]) s t)

/-- R163, R164: SKP and SKNP test the key whose number is the whole of `V[x]`. The fault above 15 is the spec's decision D10
(notes/assumptions/15.md). -/
def Obligations.KeySkips : Prop :=
  ∀ (x : Nibble) (s : State),
    decodeWord (encXKK 0xE x 0x9E) = .ok (.skp x) ∧ decodeWord (encXKK 0xE x 0xA1) = .ok (.sknp x) ∧
    (∀ k : Nibble, (s.getV x).toNat = k.toNat →
      (∃ t, exec (.skp x) s = .next t ∧ (s.keyDown k = true → t.pc = s.pc + 4) ∧
        (s.keyDown k = false → t.pc = s.pc + 2) ∧ OnlyChanges (· = .pc) s t) ∧
      (∃ t, exec (.sknp x) s = .next t ∧ (s.keyDown k = false → t.pc = s.pc + 4) ∧
        (s.keyDown k = true → t.pc = s.pc + 2) ∧ OnlyChanges (· = .pc) s t)) ∧
    (15 < (s.getV x).toNat →
      FaultsWith (.skp x) .keyIndexOutOfRange s ∧ FaultsWith (.sknp x) .keyIndexOutOfRange s)

/-- R165: LD Vx, K advances and halts; while halted a STEP changes nothing, TICK still counts and KEY_RELEASE does not end the
wait; the first KEY_PRESS, of any key, held or not, writes its code to `V[x]` and ends it without touching `PC`. The gate is
the spec's decision D2, TICK under it its D17, the press of a held key an inference it marks as derived
(notes/assumptions/15.md). -/
def Obligations.KeyWait : Prop :=
  ∀ (x : Nibble) (s : State),
    decodeWord (encXKK 0xF x 0x0A) = .ok (.ldVxK x) ∧
    ∃ t, exec (.ldVxK x) s = .next t ∧ t.haltedForKey = true ∧ t.pendingKeyRegister = x ∧ t.pc = s.pc + 2 ∧
      OnlyChanges (· ∈ [Part.halted, .pending, .pc]) s t ∧
      cycle t = .next t ∧ (tick t).haltedForKey = true ∧ (tick t).dt.toNat = t.dt.toNat - 1 ∧
      (∀ k, (keyRelease k t).haltedForKey = true) ∧
      ∀ k, ((keyPress k t).getV x).toNat = k.toNat ∧ (keyPress k t).haltedForKey = false ∧
        (keyPress k t).pc = t.pc ∧ OnlyChanges (· ∈ [Part.reg x, .key k, .halted]) t (keyPress k t)

/-! ## The whole machine -/

/-- R171: faults are precise. A STEP that latches a fault changes nothing but `fault_cause` (and, at an unknown word, counts
the pulse, which is an output, notes/assumptions/7.md). The latch is the spec's decision D3 (notes/assumptions/15.md). -/
def Obligations.FaultsArePrecise : Prop :=
  ∀ s t : State, s.faultCause = .noFault → cycle s = .next t → t.faultCause ≠ .noFault →
    OnlyChanges (· ∈ [Part.fault, .unknownPulses]) s t ∧
    ((t.unknownOpcodePulses ≠ s.unknownOpcodePulses) ↔ t.faultCause = .unknownOpcode)

/-- R20, R182: once a fault is latched no event but RESET changes `fault_cause`, so it holds the first fault since reset;
RESET clears it. The latch is the spec's decision D3 (notes/assumptions/15.md). -/
def Obligations.FirstFaultStays : Prop :=
  ∀ (e : Event) (s t : State), s.faultCause ≠ .noFault → perform e s = .next t →
    ((∀ image, e ≠ .reset image) → t.faultCause = s.faultCause ∧ t.pc = s.pc) ∧
    (∀ image, e = .reset image → t.faultCause = .noFault)

/-- R13's bound on `PC`, an inference the spec marks as derived, with the bound on return addresses that RET needs, is kept by
every step from every state. -/
def Obligations.PcBoundKept : Prop :=
  ∀ s t : State, PcBounded s → step s = .next t → PcBounded t

/-- The canonical form of memory, which is the model's, is kept by every step from every state. -/
def Obligations.MemCanonicalKept : Prop :=
  ∀ s t : State, MemCanonical s → step s = .next t → MemCanonical t

/-- Both invariants hold at reset. -/
def Obligations.InvariantsAtReset : Prop := PcBounded State.reset ∧ MemCanonical State.reset

/-- R10's column "written by", for the instructions: each piece of state changes only under the instructions it names. `PC` is
written only by an instruction that completes, and `fault_cause` only with a cause that R170 gives the instruction. The clauses
about the model's own fields are the model's (notes/assumptions/1.md, 2.md, 3.md, 6.md, 7.md). -/
def Obligations.StateWrittenBy : Prop :=
  ∀ (i : Instr) (s t : State), exec i s = .next t →
    (∀ r, t.getV r ≠ s.getV r →
      destination i = some r ∨ (writesFlag i = true ∧ r = 0xF) ∨
        ∃ x : Nibble, i = .ldLoad x ∧ s.i.toNat ≤ r.toNat ∧ r.toNat ≤ s.i.toNat + x.toNat) ∧
    (t.pc ≠ s.pc → t.faultCause = s.faultCause) ∧
    (t.faultCause ≠ s.faultCause → RaisedBy t.faultCause i) ∧
    ((∃ a, t.readByte a ≠ s.readByte a) → ∃ x, i = .ldB x ∨ i = .ldStore x) ∧
    (t.stack ≠ s.stack → ∃ nnn, i = .call nnn) ∧
    (t.sp ≠ s.sp → i = .ret ∨ ∃ nnn, i = .call nnn) ∧
    (t.i ≠ s.i → (∃ nnn, i = .ldI nnn) ∨ ∃ x, i = .addI x ∨ i = .ldF x ∨ i = .ldStore x ∨ i = .ldLoad x) ∧
    (t.dt ≠ s.dt → ∃ x, i = .ldDTVx x) ∧
    (t.st ≠ s.st → ∃ x, i = .ldSTVx x) ∧
    t.keys = s.keys ∧
    (t.haltedForKey ≠ s.haltedForKey → ∃ x, i = .ldVxK x) ∧
    (t.pendingKeyRegister ≠ s.pendingKeyRegister → ∃ x, i = .ldVxK x) ∧
    (t.disp ≠ s.disp → i = .cls ∨ ∃ x y n, i = .drw x y n) ∧
    (t.evRand ≠ s.evRand ∨ t.randIndex ≠ s.randIndex → ∃ x kk, i = .rnd x kk) ∧
    (t.dispChangedPulses ≠ s.dispChangedPulses → i = .cls ∨ ∃ x y n, i = .drw x y n) ∧
    t.unknownOpcodePulses = s.unknownOpcodePulses ∧
    t.unknownPolicy = s.unknownPolicy ∧ t.inbox = s.inbox ∧ t.launch = s.launch

/-- R12: `VF` is written by the flag instructions, which leave 0 or 1 in it when they complete, and otherwise only by an
instruction that names it as its destination (the spec's decision D12, notes/assumptions/15.md). -/
def Obligations.VfWrittenBy : Prop :=
  ∀ (i : Instr) (s t : State), exec i s = .next t →
    (writesFlag i = true → s.faultCause = .noFault → t.faultCause = .noFault → t.getV 0xF = 0 ∨ t.getV 0xF = 1) ∧
    (writesFlag i = false → t.getV 0xF ≠ s.getV 0xF →
      (∃ kk, i = .ldByte 0xF kk ∨ i = .addByte 0xF kk ∨ i = .rnd 0xF kk) ∨
      (∃ y, i = .ldReg 0xF y ∨ i = .orReg 0xF y ∨ i = .andReg 0xF y ∨ i = .xorReg 0xF y) ∨
      i = .ldVxDT 0xF ∨ ∃ x : Nibble, i = .ldLoad x ∧ s.i.toNat + x.toNat = 15)

/-- R16: no instruction reads `ST`. Two states that differ in `ST` alone have the same outcome but for `ST`, and LD ST gives
the same outcome altogether. -/
def Obligations.SoundTimerNeverRead : Prop :=
  ∀ (i : Instr) (s : State) (b : Byte),
    ((∀ x, i ≠ .ldSTVx x) → exec i { s with st := b } = onNext (fun t => { t with st := b }) (exec i s)) ∧
    (∀ x, i = .ldSTVx x → exec i { s with st := b } = exec i s)

/-- R15, an inference the spec marks as derived: a slot at or above `SP` is never read before it is written again. Changing it
changes no outcome but that slot, as long as it stays at or above `SP`. -/
def Obligations.FreeSlotsUnobservable : Prop :=
  ∀ (i : Instr) (s : State) (k : Fin 16) (w : Word), s.sp.val ≤ k.val →
    exec i { s with stack := s.stack.set k.val w } =
      onNext (fun t => if t.sp.val ≤ k.val then { t with stack := t.stack.set k.val w } else t) (exec i s)

/-- R204: an ended program, a JP to its own address (the spec's decision D21), stays as it is: every STEP leaves the whole
state unchanged. -/
def Obligations.EndedStateStays : Prop := ∀ s : State, s.ended → cycle s = .next s
end

