-- ==== Sys2Proof/Laws/Decode.lean ====
section
/-! SUPPORT. The operand fields of an encoded word, and what each mask of the opcode map leaves of it. -/

namespace Sys2Proof

/-! ## Fields of a word laid out by the encoder -/

@[simp] theorem fieldOp_encNNN (op : Nibble) (nnn : Addr) : fieldOp (encNNN op nnn) = op :=
  BitVec.extractLsb'_append_eq_left

@[simp] theorem fieldNNN_encNNN (op : Nibble) (nnn : Addr) : fieldNNN (encNNN op nnn) = nnn :=
  BitVec.extractLsb'_append_eq_right

@[simp] theorem fieldOp_encXKK (op x : Nibble) (kk : Byte) : fieldOp (encXKK op x kk) = op :=
  BitVec.extractLsb'_append_eq_left

@[simp] theorem fieldX_encXKK (op x : Nibble) (kk : Byte) : fieldX (encXKK op x kk) = x := by
  unfold fieldX encXKK
  rw [BitVec.extractLsb'_append_eq_of_add_le (by decide)]
  exact BitVec.extractLsb'_append_eq_left

@[simp] theorem fieldKK_encXKK (op x : Nibble) (kk : Byte) : fieldKK (encXKK op x kk) = kk := by
  unfold fieldKK encXKK
  rw [BitVec.extractLsb'_append_eq_of_add_le (by decide)]
  exact BitVec.extractLsb'_append_eq_right

@[simp] theorem fieldOp_encXYN (op x y n : Nibble) : fieldOp (encXYN op x y n) = op :=
  BitVec.extractLsb'_append_eq_left

@[simp] theorem fieldX_encXYN (op x y n : Nibble) : fieldX (encXYN op x y n) = x := by
  unfold fieldX encXYN
  rw [BitVec.extractLsb'_append_eq_of_add_le (by decide)]
  exact BitVec.extractLsb'_append_eq_left

@[simp] theorem fieldY_encXYN (op x y n : Nibble) : fieldY (encXYN op x y n) = y := by
  unfold fieldY encXYN
  rw [BitVec.extractLsb'_append_eq_of_add_le (by decide), BitVec.extractLsb'_append_eq_of_add_le (by decide)]
  exact BitVec.extractLsb'_append_eq_left

@[simp] theorem fieldN_encXYN (op x y n : Nibble) : fieldN (encXYN op x y n) = n := by
  unfold fieldN encXYN
  rw [BitVec.extractLsb'_append_eq_of_add_le (by decide), BitVec.extractLsb'_append_eq_of_add_le (by decide)]
  exact BitVec.extractLsb'_append_eq_right

/-! ## What a mask leaves -/

theorem nibble_and_ones (x : Nibble) : x &&& 0xF#4 = x := by
  revert x; decide

theorem encNNN_and (op : Nibble) (nnn : Addr) : encNNN op nnn &&& 0xF000#16 = encNNN op 0 := by
  have h : (0xF000#16 : Word) = encNNN 0xF 0 := rfl
  rw [h]
  unfold encNNN
  exact BitVec.and_append.trans (congrArg₂ (· ++ ·) (nibble_and_ones op) BitVec.and_zero)

theorem encXKK_and_op (op x : Nibble) (kk : Byte) : encXKK op x kk &&& 0xF000#16 = encNNN op 0 :=
  encNNN_and op (x ++ kk)

theorem encXYN_and_op (op x y n : Nibble) : encXYN op x y n &&& 0xF000#16 = encNNN op 0 :=
  encNNN_and op (x ++ (y ++ n))

theorem encXKK_and_kk (op x : Nibble) (kk : Byte) : encXKK op x kk &&& 0xF0FF#16 = encXKK op 0 kk := by
  have h : (0xF0FF#16 : Word) = encXKK 0xF 0 0xFF := rfl
  have hk : kk &&& 0xFF#8 = kk := BitVec.and_allOnes
  rw [h]
  unfold encXKK
  exact BitVec.and_append.trans
    (congrArg₂ (· ++ ·) (nibble_and_ones op) (BitVec.and_append.trans (congrArg₂ (· ++ ·) BitVec.and_zero hk)))

theorem encXYN_and_n (op x y n : Nibble) : encXYN op x y n &&& 0xF00F#16 = encXYN op 0 0 n := by
  have h : (0xF00F#16 : Word) = encXYN 0xF 0 0 0xF := rfl
  rw [h]
  unfold encXYN
  refine BitVec.and_append.trans (congrArg₂ (· ++ ·) (nibble_and_ones op) ?_)
  refine BitVec.and_append.trans (congrArg₂ (· ++ ·) BitVec.and_zero ?_)
  exact BitVec.and_append.trans (congrArg₂ (· ++ ·) BitVec.and_zero (nibble_and_ones n))

/-! ## Every word is laid out by the encoder -/

theorem word_eq_encXYN (raw : Word) : raw = encXYN (fieldOp raw) (fieldX raw) (fieldY raw) (fieldN raw) := by
  have h₁ : fieldY raw ++ fieldN raw = raw.extractLsb' 0 8 :=
    BitVec.extractLsb'_append_extractLsb'_eq_extractLsb' rfl
  have h₂ : fieldX raw ++ raw.extractLsb' 0 8 = raw.extractLsb' 0 12 :=
    BitVec.extractLsb'_append_extractLsb'_eq_extractLsb' rfl
  have h₃ : fieldOp raw ++ raw.extractLsb' 0 12 = raw.extractLsb' 0 16 :=
    BitVec.extractLsb'_append_extractLsb'_eq_extractLsb' rfl
  unfold encXYN
  rw [h₁, h₂, h₃, BitVec.extractLsb'_eq_self]

/-- The two bytes of a word, put together again (R43). -/
theorem wordOfBytes_high_low (raw : Word) : wordOfBytes (highByte raw) (lowByte raw) = raw := by
  unfold wordOfBytes highByte lowByte
  exact (BitVec.extractLsb'_append_extractLsb'_eq_extractLsb' rfl).trans BitVec.extractLsb'_eq_self

/-! ## Mask and template as a test of fields -/

theorem encNNN_zero_inj {a b : Nibble} : encNNN a 0 = encNNN b 0 ↔ a = b :=
  ⟨fun h => by rw [← fieldOp_encNNN a 0, h, fieldOp_encNNN], fun h => by rw [h]⟩

theorem encXYN_inj {a b x x' y y' n n' : Nibble} :
    encXYN a x y n = encXYN b x' y' n' ↔ a = b ∧ x = x' ∧ y = y' ∧ n = n' := by
  constructor
  · intro h
    exact ⟨by rw [← fieldOp_encXYN a x y n, h, fieldOp_encXYN], by rw [← fieldX_encXYN a x y n, h, fieldX_encXYN],
      by rw [← fieldY_encXYN a x y n, h, fieldY_encXYN], by rw [← fieldN_encXYN a x y n, h, fieldN_encXYN]⟩
  · rintro ⟨rfl, rfl, rfl, rfl⟩; rfl

theorem encXKK_inj {a b x x' : Nibble} {k k' : Byte} :
    encXKK a x k = encXKK b x' k' ↔ a = b ∧ x = x' ∧ k = k' := by
  constructor
  · intro h
    exact ⟨by rw [← fieldOp_encXKK a x k, h, fieldOp_encXKK], by rw [← fieldX_encXKK a x k, h, fieldX_encXKK],
      by rw [← fieldKK_encXKK a x k, h, fieldKK_encXKK]⟩
  · rintro ⟨rfl, rfl, rfl⟩; rfl

theorem word_eq_encXKK (raw : Word) : raw = encXKK (fieldOp raw) (fieldX raw) (fieldKK raw) := by
  have h : fieldY raw ++ fieldN raw = fieldKK raw := BitVec.extractLsb'_append_extractLsb'_eq_extractLsb' rfl
  rw [← h]
  exact word_eq_encXYN raw

theorem word_eq_encNNN (raw : Word) : raw = encNNN (fieldOp raw) (fieldNNN raw) := by
  have h : fieldX raw ++ fieldKK raw = fieldNNN raw := BitVec.extractLsb'_append_extractLsb'_eq_extractLsb' rfl
  rw [← h]
  exact word_eq_encXKK raw

/-- Mask 0xF000: the major opcode alone is compared. -/
theorem and_F000_eq (raw : Word) (o : Nibble) : raw &&& 0xF000 = encNNN o 0 ↔ fieldOp raw = o := by
  conv_lhs => rw [word_eq_encNNN raw]
  exact (Eq.congr (encNNN_and (fieldOp raw) (fieldNNN raw)) rfl).trans encNNN_zero_inj

/-- Mask 0xF00F: the major opcode and the last nibble are compared. -/
theorem and_F00F_eq (raw : Word) (o m : Nibble) :
    raw &&& 0xF00F = encXYN o 0 0 m ↔ fieldOp raw = o ∧ fieldN raw = m := by
  conv_lhs => rw [word_eq_encXYN raw]
  refine (Eq.congr (encXYN_and_n (fieldOp raw) (fieldX raw) (fieldY raw) (fieldN raw)) rfl).trans ?_
  simp [encXYN_inj]

/-- Mask 0xF0FF: the major opcode and the low byte are compared. -/
theorem and_F0FF_eq (raw : Word) (o : Nibble) (k : Byte) :
    raw &&& 0xF0FF = encXKK o 0 k ↔ fieldOp raw = o ∧ fieldKK raw = k := by
  conv_lhs => rw [word_eq_encXKK raw]
  refine (Eq.congr (encXKK_and_kk (fieldOp raw) (fieldX raw) (fieldKK raw)) rfl).trans ?_
  simp [encXKK_inj]

theorem rowNone_matches (t : Word) (i : Instr) (raw : Word) : (rowNone t i).matches raw = decide (raw = t) := by
  have h : raw &&& 0xFFFF = raw := BitVec.and_allOnes
  simp only [OpcodeRow.matches, rowNone, h, List.contains_nil, Bool.not_false, Bool.and_true]
  exact beq_eq_decide raw t

theorem rowNNN_matches (o : Nibble) (mk : Addr → Instr) (raw : Word) :
    (rowNNN (encNNN o 0) mk).matches raw = decide (fieldOp raw = o) := by
  simp only [OpcodeRow.matches, rowNNN, List.contains_nil, Bool.not_false, Bool.and_true, beq_eq_decide, and_F000_eq]

theorem rowXKK_matches (o : Nibble) (mk : Nibble → Byte → Instr) (raw : Word) :
    (rowXKK (encNNN o 0) mk).matches raw = decide (fieldOp raw = o) := rowNNN_matches o (fun _ => .cls) raw

theorem rowXYN_matches (o : Nibble) (mk : Nibble → Nibble → Nibble → Instr) (raw : Word) :
    (rowXYN (encNNN o 0) mk).matches raw = decide (fieldOp raw = o) := rowNNN_matches o (fun _ => .cls) raw

theorem rowXY_matches (o m : Nibble) (mk : Nibble → Nibble → Instr) (raw : Word) :
    (rowXY (encXYN o 0 0 m) mk).matches raw = decide (fieldOp raw = o ∧ fieldN raw = m) := by
  simp only [OpcodeRow.matches, rowXY, List.contains_nil, Bool.not_false, Bool.and_true, beq_eq_decide, and_F00F_eq]

theorem rowX_matches (o : Nibble) (k : Byte) (mk : Nibble → Instr) (raw : Word) :
    (rowX (encXKK o 0 k) mk).matches raw = decide (fieldOp raw = o ∧ fieldKK raw = k) := by
  simp only [OpcodeRow.matches, rowX, List.contains_nil, Bool.not_false, Bool.and_true, beq_eq_decide, and_F0FF_eq]

theorem eq_encNNN_iff (raw : Word) (o : Nibble) (nnn : Addr) :
    raw = encNNN o nnn ↔ fieldOp raw = o ∧ fieldNNN raw = nnn := by
  constructor
  · rintro rfl
    exact ⟨fieldOp_encNNN o nnn, fieldNNN_encNNN o nnn⟩
  · rintro ⟨rfl, rfl⟩
    exact word_eq_encNNN raw

theorem eq_cls_iff (raw : Word) : raw = 0x00E0 ↔ fieldOp raw = 0 ∧ fieldNNN raw = 0x0E0 := eq_encNNN_iff raw 0 0x0E0

theorem eq_ret_iff (raw : Word) : raw = 0x00EE ↔ fieldOp raw = 0 ∧ fieldNNN raw = 0x0EE := eq_encNNN_iff raw 0 0x0EE

/-- R65: SYS takes the words of major opcode 0 but the two it excludes. -/
theorem rowSys_matches (raw : Word) :
    ({ rowNNN 0x0000 .sys with excludes := [0x00E0, 0x00EE] } : OpcodeRow).matches raw =
      decide (fieldOp raw = 0 ∧ fieldNNN raw ≠ 0x0E0 ∧ fieldNNN raw ≠ 0x0EE) := by
  have h : (raw &&& 0xF000 == 0x0000) = decide (fieldOp raw = 0) := by
    rw [beq_eq_decide]
    exact decide_eq_decide.2 (and_F000_eq raw 0)
  have h₁ := eq_cls_iff raw
  have h₂ := eq_ret_iff raw
  simp only [OpcodeRow.matches, rowNNN, h, List.contains_cons, List.contains_nil, beq_eq_decide, h₁, h₂]
  simp only [ne_eq, Bool.decide_and, decide_not]
  cases decide (fieldOp raw = 0) <;> simp

/-! ## The decoder by fields -/

/-- A test of the major opcode. -/
def isOp (raw : Word) (o : Nibble) : Bool := decide (fieldOp raw = o)

/-- A test of the major opcode and the last nibble. -/
def isOpN (raw : Word) (o m : Nibble) : Bool := decide (fieldOp raw = o ∧ fieldN raw = m)

/-- A test of the major opcode and the low byte. -/
def isOpKK (raw : Word) (o : Nibble) (k : Byte) : Bool := decide (fieldOp raw = o ∧ fieldKK raw = k)

/-- Rows 1 to 10 of the map as tests of fields, each with what it builds. -/
def testsLow (raw : Word) : List (Bool × Instr) :=
  [ (decide (fieldOp raw = 0 ∧ fieldNNN raw ≠ 0x0E0 ∧ fieldNNN raw ≠ 0x0EE), .sys (fieldNNN raw)),
    (decide (fieldOp raw = 0 ∧ fieldNNN raw = 0x0E0), .cls), (decide (fieldOp raw = 0 ∧ fieldNNN raw = 0x0EE), .ret),
    (isOp raw 1, .jp (fieldNNN raw)), (isOp raw 2, .call (fieldNNN raw)),
    (isOp raw 3, .seByte (fieldX raw) (fieldKK raw)), (isOp raw 4, .sneByte (fieldX raw) (fieldKK raw)),
    (isOpN raw 5 0, .seReg (fieldX raw) (fieldY raw)),
    (isOp raw 6, .ldByte (fieldX raw) (fieldKK raw)), (isOp raw 7, .addByte (fieldX raw) (fieldKK raw)) ]

/-- Rows 11 to 19. -/
def testsAlu (raw : Word) : List (Bool × Instr) :=
  [ (isOpN raw 8 0, .ldReg (fieldX raw) (fieldY raw)), (isOpN raw 8 1, .orReg (fieldX raw) (fieldY raw)),
    (isOpN raw 8 2, .andReg (fieldX raw) (fieldY raw)), (isOpN raw 8 3, .xorReg (fieldX raw) (fieldY raw)),
    (isOpN raw 8 4, .addReg (fieldX raw) (fieldY raw)), (isOpN raw 8 5, .sub (fieldX raw) (fieldY raw)),
    (isOpN raw 8 6, .shr (fieldX raw) (fieldY raw)), (isOpN raw 8 7, .subn (fieldX raw) (fieldY raw)),
    (isOpN raw 8 0xE, .shl (fieldX raw) (fieldY raw)) ]

/-- Rows 20 to 35. -/
def testsHigh (raw : Word) : List (Bool × Instr) :=
  [ (isOpN raw 9 0, .sneReg (fieldX raw) (fieldY raw)), (isOp raw 0xA, .ldI (fieldNNN raw)),
    (isOp raw 0xB, .jpV0 (fieldNNN raw)), (isOp raw 0xC, .rnd (fieldX raw) (fieldKK raw)),
    (isOp raw 0xD, .drw (fieldX raw) (fieldY raw) (fieldN raw)),
    (isOpKK raw 0xE 0x9E, .skp (fieldX raw)), (isOpKK raw 0xE 0xA1, .sknp (fieldX raw)),
    (isOpKK raw 0xF 0x07, .ldVxDT (fieldX raw)), (isOpKK raw 0xF 0x0A, .ldVxK (fieldX raw)),
    (isOpKK raw 0xF 0x15, .ldDTVx (fieldX raw)), (isOpKK raw 0xF 0x18, .ldSTVx (fieldX raw)),
    (isOpKK raw 0xF 0x1E, .addI (fieldX raw)), (isOpKK raw 0xF 0x29, .ldF (fieldX raw)),
    (isOpKK raw 0xF 0x33, .ldB (fieldX raw)), (isOpKK raw 0xF 0x55, .ldStore (fieldX raw)),
    (isOpKK raw 0xF 0x65, .ldLoad (fieldX raw)) ]

/-- Every row of the map as a test of fields. -/
def fieldTests (raw : Word) : List (Bool × Instr) := testsLow raw ++ testsAlu raw ++ testsHigh raw

theorem at_cons {row : OpcodeRow} {raw : Word} {b : Bool} {rows : List OpcodeRow} {l : List (Bool × Instr)}
    (h : row.matches raw = b) (hl : rows.map (fun row => (row.matches raw, row.build raw)) = l) :
    (row :: rows).map (fun row => (row.matches raw, row.build raw)) = (b, row.build raw) :: l := by
  rw [List.map_cons, h, hl]

/-- The rows of the opcode map are these tests. -/
theorem opcodeMap_fieldTests (raw : Word) :
    opcodeMap.map (fun row => (row.matches raw, row.build raw)) = fieldTests raw := by
  unfold opcodeMap fieldTests
  rw [List.map_append, List.map_append]
  refine congrArg₂ (· ++ ·) (congrArg₂ (· ++ ·) ?_ ?_) ?_
  · refine at_cons (rowSys_matches raw) ?_
    refine at_cons ((rowNone_matches _ _ raw).trans (decide_eq_decide.2 (eq_cls_iff raw))) ?_
    refine at_cons ((rowNone_matches _ _ raw).trans (decide_eq_decide.2 (eq_ret_iff raw))) ?_
    refine at_cons (rowNNN_matches 0x1 _ raw) ?_
    refine at_cons (rowNNN_matches 0x2 _ raw) ?_
    refine at_cons (rowXKK_matches 0x3 _ raw) ?_
    refine at_cons (rowXKK_matches 0x4 _ raw) ?_
    refine at_cons (rowXY_matches 0x5 0x0 _ raw) ?_
    refine at_cons (rowXKK_matches 0x6 _ raw) ?_
    refine at_cons (rowXKK_matches 0x7 _ raw) ?_
    rfl
  · refine at_cons (rowXY_matches 0x8 0x0 _ raw) ?_
    refine at_cons (rowXY_matches 0x8 0x1 _ raw) ?_
    refine at_cons (rowXY_matches 0x8 0x2 _ raw) ?_
    refine at_cons (rowXY_matches 0x8 0x3 _ raw) ?_
    refine at_cons (rowXY_matches 0x8 0x4 _ raw) ?_
    refine at_cons (rowXY_matches 0x8 0x5 _ raw) ?_
    refine at_cons (rowXY_matches 0x8 0x6 _ raw) ?_
    refine at_cons (rowXY_matches 0x8 0x7 _ raw) ?_
    refine at_cons (rowXY_matches 0x8 0xE _ raw) ?_
    rfl
  · refine at_cons (rowXY_matches 0x9 0x0 _ raw) ?_
    refine at_cons (rowNNN_matches 0xA _ raw) ?_
    refine at_cons (rowNNN_matches 0xB _ raw) ?_
    refine at_cons (rowXKK_matches 0xC _ raw) ?_
    refine at_cons (rowXYN_matches 0xD _ raw) ?_
    refine at_cons (rowX_matches 0xE 0x9E _ raw) ?_
    refine at_cons (rowX_matches 0xE 0xA1 _ raw) ?_
    refine at_cons (rowX_matches 0xF 0x07 _ raw) ?_
    refine at_cons (rowX_matches 0xF 0x0A _ raw) ?_
    refine at_cons (rowX_matches 0xF 0x15 _ raw) ?_
    refine at_cons (rowX_matches 0xF 0x18 _ raw) ?_
    refine at_cons (rowX_matches 0xF 0x1E _ raw) ?_
    refine at_cons (rowX_matches 0xF 0x29 _ raw) ?_
    refine at_cons (rowX_matches 0xF 0x33 _ raw) ?_
    refine at_cons (rowX_matches 0xF 0x55 _ raw) ?_
    refine at_cons (rowX_matches 0xF 0x65 _ raw) ?_
    rfl

/-- The decoder as the first of these tests that succeeds. -/
theorem classify_eq (raw : Word) : classify raw = ((fieldTests raw).find? (fun p => p.1)).map (fun p => p.2) := by
  rw [← opcodeMap_fieldTests, List.find?_map, Option.map_map]
  rfl

/-- A property of the rows of the map, as a property of the tests. -/
theorem exists_row_iff (raw : Word) (q : Bool → Instr → Prop) :
    (∃ row ∈ opcodeMap, q (row.matches raw) (row.build raw)) ↔ ∃ p ∈ fieldTests raw, q p.1 p.2 := by
  rw [← opcodeMap_fieldTests]
  simp only [List.mem_map, exists_exists_and_eq_and]

end Sys2Proof
end

