-- ==== Sys2Proof/Laws/State.lean ====
section
/-! SUPPORT. One lemma per field per named update: what an update writes, and that it writes nothing else. -/

namespace Sys2Proof.Machine

variable (s : State)

/-! ## setV -/

@[simp] theorem setV_v (x : Nibble) (b : Byte) : (s.setV x b).v = s.v.set x.toNat b x.isLt := rfl
@[simp] theorem setV_i (x : Nibble) (b : Byte) : (s.setV x b).i = s.i := rfl
@[simp] theorem setV_pc (x : Nibble) (b : Byte) : (s.setV x b).pc = s.pc := rfl
@[simp] theorem setV_sp (x : Nibble) (b : Byte) : (s.setV x b).sp = s.sp := rfl
@[simp] theorem setV_stack (x : Nibble) (b : Byte) : (s.setV x b).stack = s.stack := rfl
@[simp] theorem setV_dt (x : Nibble) (b : Byte) : (s.setV x b).dt = s.dt := rfl
@[simp] theorem setV_st (x : Nibble) (b : Byte) : (s.setV x b).st = s.st := rfl
@[simp] theorem setV_keys (x : Nibble) (b : Byte) : (s.setV x b).keys = s.keys := rfl
@[simp] theorem setV_haltedForKey (x : Nibble) (b : Byte) : (s.setV x b).haltedForKey = s.haltedForKey := rfl
@[simp] theorem setV_pendingKeyRegister (x : Nibble) (b : Byte) : (s.setV x b).pendingKeyRegister = s.pendingKeyRegister := rfl
@[simp] theorem setV_disp (x : Nibble) (b : Byte) : (s.setV x b).disp = s.disp := rfl
@[simp] theorem setV_faultCause (x : Nibble) (b : Byte) : (s.setV x b).faultCause = s.faultCause := rfl
@[simp] theorem setV_mem (x : Nibble) (b : Byte) : (s.setV x b).mem = s.mem := rfl
@[simp] theorem setV_unknownPolicy (x : Nibble) (b : Byte) : (s.setV x b).unknownPolicy = s.unknownPolicy := rfl
@[simp] theorem setV_inbox (x : Nibble) (b : Byte) : (s.setV x b).inbox = s.inbox := rfl
@[simp] theorem setV_evRand (x : Nibble) (b : Byte) : (s.setV x b).evRand = s.evRand := rfl
@[simp] theorem setV_randIndex (x : Nibble) (b : Byte) : (s.setV x b).randIndex = s.randIndex := rfl
@[simp] theorem setV_launch (x : Nibble) (b : Byte) : (s.setV x b).launch = s.launch := rfl
@[simp] theorem setV_dispChangedPulses (x : Nibble) (b : Byte) : (s.setV x b).dispChangedPulses = s.dispChangedPulses := rfl
@[simp] theorem setV_unknownOpcodePulses (x : Nibble) (b : Byte) : (s.setV x b).unknownOpcodePulses = s.unknownOpcodePulses := rfl

/-! ## setResultAndFlag -/

@[simp] theorem setResultAndFlag_v (x : Nibble) (b f : Byte) : (s.setResultAndFlag x b f).v = (s.v.set x.toNat b x.isLt).set 15 f := rfl
@[simp] theorem setResultAndFlag_i (x : Nibble) (b f : Byte) : (s.setResultAndFlag x b f).i = s.i := rfl
@[simp] theorem setResultAndFlag_pc (x : Nibble) (b f : Byte) : (s.setResultAndFlag x b f).pc = s.pc := rfl
@[simp] theorem setResultAndFlag_sp (x : Nibble) (b f : Byte) : (s.setResultAndFlag x b f).sp = s.sp := rfl
@[simp] theorem setResultAndFlag_stack (x : Nibble) (b f : Byte) : (s.setResultAndFlag x b f).stack = s.stack := rfl
@[simp] theorem setResultAndFlag_dt (x : Nibble) (b f : Byte) : (s.setResultAndFlag x b f).dt = s.dt := rfl
@[simp] theorem setResultAndFlag_st (x : Nibble) (b f : Byte) : (s.setResultAndFlag x b f).st = s.st := rfl
@[simp] theorem setResultAndFlag_keys (x : Nibble) (b f : Byte) : (s.setResultAndFlag x b f).keys = s.keys := rfl
@[simp] theorem setResultAndFlag_haltedForKey (x : Nibble) (b f : Byte) : (s.setResultAndFlag x b f).haltedForKey = s.haltedForKey := rfl
@[simp] theorem setResultAndFlag_pendingKeyRegister (x : Nibble) (b f : Byte) : (s.setResultAndFlag x b f).pendingKeyRegister = s.pendingKeyRegister := rfl
@[simp] theorem setResultAndFlag_disp (x : Nibble) (b f : Byte) : (s.setResultAndFlag x b f).disp = s.disp := rfl
@[simp] theorem setResultAndFlag_faultCause (x : Nibble) (b f : Byte) : (s.setResultAndFlag x b f).faultCause = s.faultCause := rfl
@[simp] theorem setResultAndFlag_mem (x : Nibble) (b f : Byte) : (s.setResultAndFlag x b f).mem = s.mem := rfl
@[simp] theorem setResultAndFlag_unknownPolicy (x : Nibble) (b f : Byte) : (s.setResultAndFlag x b f).unknownPolicy = s.unknownPolicy := rfl
@[simp] theorem setResultAndFlag_inbox (x : Nibble) (b f : Byte) : (s.setResultAndFlag x b f).inbox = s.inbox := rfl
@[simp] theorem setResultAndFlag_evRand (x : Nibble) (b f : Byte) : (s.setResultAndFlag x b f).evRand = s.evRand := rfl
@[simp] theorem setResultAndFlag_randIndex (x : Nibble) (b f : Byte) : (s.setResultAndFlag x b f).randIndex = s.randIndex := rfl
@[simp] theorem setResultAndFlag_launch (x : Nibble) (b f : Byte) : (s.setResultAndFlag x b f).launch = s.launch := rfl
@[simp] theorem setResultAndFlag_dispChangedPulses (x : Nibble) (b f : Byte) : (s.setResultAndFlag x b f).dispChangedPulses = s.dispChangedPulses := rfl
@[simp] theorem setResultAndFlag_unknownOpcodePulses (x : Nibble) (b f : Byte) : (s.setResultAndFlag x b f).unknownOpcodePulses = s.unknownOpcodePulses := rfl

/-! ## setI -/

@[simp] theorem setI_v (w : Word) : (s.setI w).v = s.v := rfl
@[simp] theorem setI_i (w : Word) : (s.setI w).i = w := rfl
@[simp] theorem setI_pc (w : Word) : (s.setI w).pc = s.pc := rfl
@[simp] theorem setI_sp (w : Word) : (s.setI w).sp = s.sp := rfl
@[simp] theorem setI_stack (w : Word) : (s.setI w).stack = s.stack := rfl
@[simp] theorem setI_dt (w : Word) : (s.setI w).dt = s.dt := rfl
@[simp] theorem setI_st (w : Word) : (s.setI w).st = s.st := rfl
@[simp] theorem setI_keys (w : Word) : (s.setI w).keys = s.keys := rfl
@[simp] theorem setI_haltedForKey (w : Word) : (s.setI w).haltedForKey = s.haltedForKey := rfl
@[simp] theorem setI_pendingKeyRegister (w : Word) : (s.setI w).pendingKeyRegister = s.pendingKeyRegister := rfl
@[simp] theorem setI_disp (w : Word) : (s.setI w).disp = s.disp := rfl
@[simp] theorem setI_faultCause (w : Word) : (s.setI w).faultCause = s.faultCause := rfl
@[simp] theorem setI_mem (w : Word) : (s.setI w).mem = s.mem := rfl
@[simp] theorem setI_unknownPolicy (w : Word) : (s.setI w).unknownPolicy = s.unknownPolicy := rfl
@[simp] theorem setI_inbox (w : Word) : (s.setI w).inbox = s.inbox := rfl
@[simp] theorem setI_evRand (w : Word) : (s.setI w).evRand = s.evRand := rfl
@[simp] theorem setI_randIndex (w : Word) : (s.setI w).randIndex = s.randIndex := rfl
@[simp] theorem setI_launch (w : Word) : (s.setI w).launch = s.launch := rfl
@[simp] theorem setI_dispChangedPulses (w : Word) : (s.setI w).dispChangedPulses = s.dispChangedPulses := rfl
@[simp] theorem setI_unknownOpcodePulses (w : Word) : (s.setI w).unknownOpcodePulses = s.unknownOpcodePulses := rfl

/-! ## setPc -/

@[simp] theorem setPc_v (w : Word) : (s.setPc w).v = s.v := rfl
@[simp] theorem setPc_i (w : Word) : (s.setPc w).i = s.i := rfl
@[simp] theorem setPc_pc (w : Word) : (s.setPc w).pc = w := rfl
@[simp] theorem setPc_sp (w : Word) : (s.setPc w).sp = s.sp := rfl
@[simp] theorem setPc_stack (w : Word) : (s.setPc w).stack = s.stack := rfl
@[simp] theorem setPc_dt (w : Word) : (s.setPc w).dt = s.dt := rfl
@[simp] theorem setPc_st (w : Word) : (s.setPc w).st = s.st := rfl
@[simp] theorem setPc_keys (w : Word) : (s.setPc w).keys = s.keys := rfl
@[simp] theorem setPc_haltedForKey (w : Word) : (s.setPc w).haltedForKey = s.haltedForKey := rfl
@[simp] theorem setPc_pendingKeyRegister (w : Word) : (s.setPc w).pendingKeyRegister = s.pendingKeyRegister := rfl
@[simp] theorem setPc_disp (w : Word) : (s.setPc w).disp = s.disp := rfl
@[simp] theorem setPc_faultCause (w : Word) : (s.setPc w).faultCause = s.faultCause := rfl
@[simp] theorem setPc_mem (w : Word) : (s.setPc w).mem = s.mem := rfl
@[simp] theorem setPc_unknownPolicy (w : Word) : (s.setPc w).unknownPolicy = s.unknownPolicy := rfl
@[simp] theorem setPc_inbox (w : Word) : (s.setPc w).inbox = s.inbox := rfl
@[simp] theorem setPc_evRand (w : Word) : (s.setPc w).evRand = s.evRand := rfl
@[simp] theorem setPc_randIndex (w : Word) : (s.setPc w).randIndex = s.randIndex := rfl
@[simp] theorem setPc_launch (w : Word) : (s.setPc w).launch = s.launch := rfl
@[simp] theorem setPc_dispChangedPulses (w : Word) : (s.setPc w).dispChangedPulses = s.dispChangedPulses := rfl
@[simp] theorem setPc_unknownOpcodePulses (w : Word) : (s.setPc w).unknownOpcodePulses = s.unknownOpcodePulses := rfl

/-! ## advance -/

@[simp] theorem advance_v : (s.advance).v = s.v := rfl
@[simp] theorem advance_i : (s.advance).i = s.i := rfl
@[simp] theorem advance_pc : (s.advance).pc = s.pc + 2 := rfl
@[simp] theorem advance_sp : (s.advance).sp = s.sp := rfl
@[simp] theorem advance_stack : (s.advance).stack = s.stack := rfl
@[simp] theorem advance_dt : (s.advance).dt = s.dt := rfl
@[simp] theorem advance_st : (s.advance).st = s.st := rfl
@[simp] theorem advance_keys : (s.advance).keys = s.keys := rfl
@[simp] theorem advance_haltedForKey : (s.advance).haltedForKey = s.haltedForKey := rfl
@[simp] theorem advance_pendingKeyRegister : (s.advance).pendingKeyRegister = s.pendingKeyRegister := rfl
@[simp] theorem advance_disp : (s.advance).disp = s.disp := rfl
@[simp] theorem advance_faultCause : (s.advance).faultCause = s.faultCause := rfl
@[simp] theorem advance_mem : (s.advance).mem = s.mem := rfl
@[simp] theorem advance_unknownPolicy : (s.advance).unknownPolicy = s.unknownPolicy := rfl
@[simp] theorem advance_inbox : (s.advance).inbox = s.inbox := rfl
@[simp] theorem advance_evRand : (s.advance).evRand = s.evRand := rfl
@[simp] theorem advance_randIndex : (s.advance).randIndex = s.randIndex := rfl
@[simp] theorem advance_launch : (s.advance).launch = s.launch := rfl
@[simp] theorem advance_dispChangedPulses : (s.advance).dispChangedPulses = s.dispChangedPulses := rfl
@[simp] theorem advance_unknownOpcodePulses : (s.advance).unknownOpcodePulses = s.unknownOpcodePulses := rfl

/-! ## skip -/

@[simp] theorem skip_v : (s.skip).v = s.v := rfl
@[simp] theorem skip_i : (s.skip).i = s.i := rfl
@[simp] theorem skip_pc : (s.skip).pc = s.pc + 4 := rfl
@[simp] theorem skip_sp : (s.skip).sp = s.sp := rfl
@[simp] theorem skip_stack : (s.skip).stack = s.stack := rfl
@[simp] theorem skip_dt : (s.skip).dt = s.dt := rfl
@[simp] theorem skip_st : (s.skip).st = s.st := rfl
@[simp] theorem skip_keys : (s.skip).keys = s.keys := rfl
@[simp] theorem skip_haltedForKey : (s.skip).haltedForKey = s.haltedForKey := rfl
@[simp] theorem skip_pendingKeyRegister : (s.skip).pendingKeyRegister = s.pendingKeyRegister := rfl
@[simp] theorem skip_disp : (s.skip).disp = s.disp := rfl
@[simp] theorem skip_faultCause : (s.skip).faultCause = s.faultCause := rfl
@[simp] theorem skip_mem : (s.skip).mem = s.mem := rfl
@[simp] theorem skip_unknownPolicy : (s.skip).unknownPolicy = s.unknownPolicy := rfl
@[simp] theorem skip_inbox : (s.skip).inbox = s.inbox := rfl
@[simp] theorem skip_evRand : (s.skip).evRand = s.evRand := rfl
@[simp] theorem skip_randIndex : (s.skip).randIndex = s.randIndex := rfl
@[simp] theorem skip_launch : (s.skip).launch = s.launch := rfl
@[simp] theorem skip_dispChangedPulses : (s.skip).dispChangedPulses = s.dispChangedPulses := rfl
@[simp] theorem skip_unknownOpcodePulses : (s.skip).unknownOpcodePulses = s.unknownOpcodePulses := rfl

/-! ## setKey -/

@[simp] theorem setKey_v (k : Nibble) (b : Bool) : (s.setKey k b).v = s.v := rfl
@[simp] theorem setKey_i (k : Nibble) (b : Bool) : (s.setKey k b).i = s.i := rfl
@[simp] theorem setKey_pc (k : Nibble) (b : Bool) : (s.setKey k b).pc = s.pc := rfl
@[simp] theorem setKey_sp (k : Nibble) (b : Bool) : (s.setKey k b).sp = s.sp := rfl
@[simp] theorem setKey_stack (k : Nibble) (b : Bool) : (s.setKey k b).stack = s.stack := rfl
@[simp] theorem setKey_dt (k : Nibble) (b : Bool) : (s.setKey k b).dt = s.dt := rfl
@[simp] theorem setKey_st (k : Nibble) (b : Bool) : (s.setKey k b).st = s.st := rfl
@[simp] theorem setKey_keys (k : Nibble) (b : Bool) : (s.setKey k b).keys = s.keys.set k.toNat b k.isLt := rfl
@[simp] theorem setKey_haltedForKey (k : Nibble) (b : Bool) : (s.setKey k b).haltedForKey = s.haltedForKey := rfl
@[simp] theorem setKey_pendingKeyRegister (k : Nibble) (b : Bool) : (s.setKey k b).pendingKeyRegister = s.pendingKeyRegister := rfl
@[simp] theorem setKey_disp (k : Nibble) (b : Bool) : (s.setKey k b).disp = s.disp := rfl
@[simp] theorem setKey_faultCause (k : Nibble) (b : Bool) : (s.setKey k b).faultCause = s.faultCause := rfl
@[simp] theorem setKey_mem (k : Nibble) (b : Bool) : (s.setKey k b).mem = s.mem := rfl
@[simp] theorem setKey_unknownPolicy (k : Nibble) (b : Bool) : (s.setKey k b).unknownPolicy = s.unknownPolicy := rfl
@[simp] theorem setKey_inbox (k : Nibble) (b : Bool) : (s.setKey k b).inbox = s.inbox := rfl
@[simp] theorem setKey_evRand (k : Nibble) (b : Bool) : (s.setKey k b).evRand = s.evRand := rfl
@[simp] theorem setKey_randIndex (k : Nibble) (b : Bool) : (s.setKey k b).randIndex = s.randIndex := rfl
@[simp] theorem setKey_launch (k : Nibble) (b : Bool) : (s.setKey k b).launch = s.launch := rfl
@[simp] theorem setKey_dispChangedPulses (k : Nibble) (b : Bool) : (s.setKey k b).dispChangedPulses = s.dispChangedPulses := rfl
@[simp] theorem setKey_unknownOpcodePulses (k : Nibble) (b : Bool) : (s.setKey k b).unknownOpcodePulses = s.unknownOpcodePulses := rfl

/-! ## waitForKey -/

@[simp] theorem waitForKey_v (x : Nibble) : (s.waitForKey x).v = s.v := rfl
@[simp] theorem waitForKey_i (x : Nibble) : (s.waitForKey x).i = s.i := rfl
@[simp] theorem waitForKey_pc (x : Nibble) : (s.waitForKey x).pc = s.pc := rfl
@[simp] theorem waitForKey_sp (x : Nibble) : (s.waitForKey x).sp = s.sp := rfl
@[simp] theorem waitForKey_stack (x : Nibble) : (s.waitForKey x).stack = s.stack := rfl
@[simp] theorem waitForKey_dt (x : Nibble) : (s.waitForKey x).dt = s.dt := rfl
@[simp] theorem waitForKey_st (x : Nibble) : (s.waitForKey x).st = s.st := rfl
@[simp] theorem waitForKey_keys (x : Nibble) : (s.waitForKey x).keys = s.keys := rfl
@[simp] theorem waitForKey_haltedForKey (x : Nibble) : (s.waitForKey x).haltedForKey = true := rfl
@[simp] theorem waitForKey_pendingKeyRegister (x : Nibble) : (s.waitForKey x).pendingKeyRegister = x := rfl
@[simp] theorem waitForKey_disp (x : Nibble) : (s.waitForKey x).disp = s.disp := rfl
@[simp] theorem waitForKey_faultCause (x : Nibble) : (s.waitForKey x).faultCause = s.faultCause := rfl
@[simp] theorem waitForKey_mem (x : Nibble) : (s.waitForKey x).mem = s.mem := rfl
@[simp] theorem waitForKey_unknownPolicy (x : Nibble) : (s.waitForKey x).unknownPolicy = s.unknownPolicy := rfl
@[simp] theorem waitForKey_inbox (x : Nibble) : (s.waitForKey x).inbox = s.inbox := rfl
@[simp] theorem waitForKey_evRand (x : Nibble) : (s.waitForKey x).evRand = s.evRand := rfl
@[simp] theorem waitForKey_randIndex (x : Nibble) : (s.waitForKey x).randIndex = s.randIndex := rfl
@[simp] theorem waitForKey_launch (x : Nibble) : (s.waitForKey x).launch = s.launch := rfl
@[simp] theorem waitForKey_dispChangedPulses (x : Nibble) : (s.waitForKey x).dispChangedPulses = s.dispChangedPulses := rfl
@[simp] theorem waitForKey_unknownOpcodePulses (x : Nibble) : (s.waitForKey x).unknownOpcodePulses = s.unknownOpcodePulses := rfl

/-! ## show -/

@[simp] theorem show_v (d : Grid) : (s.show d).v = s.v := rfl
@[simp] theorem show_i (d : Grid) : (s.show d).i = s.i := rfl
@[simp] theorem show_pc (d : Grid) : (s.show d).pc = s.pc := rfl
@[simp] theorem show_sp (d : Grid) : (s.show d).sp = s.sp := rfl
@[simp] theorem show_stack (d : Grid) : (s.show d).stack = s.stack := rfl
@[simp] theorem show_dt (d : Grid) : (s.show d).dt = s.dt := rfl
@[simp] theorem show_st (d : Grid) : (s.show d).st = s.st := rfl
@[simp] theorem show_keys (d : Grid) : (s.show d).keys = s.keys := rfl
@[simp] theorem show_haltedForKey (d : Grid) : (s.show d).haltedForKey = s.haltedForKey := rfl
@[simp] theorem show_pendingKeyRegister (d : Grid) : (s.show d).pendingKeyRegister = s.pendingKeyRegister := rfl
@[simp] theorem show_disp (d : Grid) : (s.show d).disp = d := rfl
@[simp] theorem show_faultCause (d : Grid) : (s.show d).faultCause = s.faultCause := rfl
@[simp] theorem show_mem (d : Grid) : (s.show d).mem = s.mem := rfl
@[simp] theorem show_unknownPolicy (d : Grid) : (s.show d).unknownPolicy = s.unknownPolicy := rfl
@[simp] theorem show_inbox (d : Grid) : (s.show d).inbox = s.inbox := rfl
@[simp] theorem show_evRand (d : Grid) : (s.show d).evRand = s.evRand := rfl
@[simp] theorem show_randIndex (d : Grid) : (s.show d).randIndex = s.randIndex := rfl
@[simp] theorem show_launch (d : Grid) : (s.show d).launch = s.launch := rfl
@[simp] theorem show_dispChangedPulses (d : Grid) : (s.show d).dispChangedPulses = s.dispChangedPulses + 1 := rfl
@[simp] theorem show_unknownOpcodePulses (d : Grid) : (s.show d).unknownOpcodePulses = s.unknownOpcodePulses := rfl

/-! ## pulseUnknown -/

@[simp] theorem pulseUnknown_v : (s.pulseUnknown).v = s.v := rfl
@[simp] theorem pulseUnknown_i : (s.pulseUnknown).i = s.i := rfl
@[simp] theorem pulseUnknown_pc : (s.pulseUnknown).pc = s.pc := rfl
@[simp] theorem pulseUnknown_sp : (s.pulseUnknown).sp = s.sp := rfl
@[simp] theorem pulseUnknown_stack : (s.pulseUnknown).stack = s.stack := rfl
@[simp] theorem pulseUnknown_dt : (s.pulseUnknown).dt = s.dt := rfl
@[simp] theorem pulseUnknown_st : (s.pulseUnknown).st = s.st := rfl
@[simp] theorem pulseUnknown_keys : (s.pulseUnknown).keys = s.keys := rfl
@[simp] theorem pulseUnknown_haltedForKey : (s.pulseUnknown).haltedForKey = s.haltedForKey := rfl
@[simp] theorem pulseUnknown_pendingKeyRegister : (s.pulseUnknown).pendingKeyRegister = s.pendingKeyRegister := rfl
@[simp] theorem pulseUnknown_disp : (s.pulseUnknown).disp = s.disp := rfl
@[simp] theorem pulseUnknown_faultCause : (s.pulseUnknown).faultCause = s.faultCause := rfl
@[simp] theorem pulseUnknown_mem : (s.pulseUnknown).mem = s.mem := rfl
@[simp] theorem pulseUnknown_unknownPolicy : (s.pulseUnknown).unknownPolicy = s.unknownPolicy := rfl
@[simp] theorem pulseUnknown_inbox : (s.pulseUnknown).inbox = s.inbox := rfl
@[simp] theorem pulseUnknown_evRand : (s.pulseUnknown).evRand = s.evRand := rfl
@[simp] theorem pulseUnknown_randIndex : (s.pulseUnknown).randIndex = s.randIndex := rfl
@[simp] theorem pulseUnknown_launch : (s.pulseUnknown).launch = s.launch := rfl
@[simp] theorem pulseUnknown_dispChangedPulses : (s.pulseUnknown).dispChangedPulses = s.dispChangedPulses := rfl
@[simp] theorem pulseUnknown_unknownOpcodePulses : (s.pulseUnknown).unknownOpcodePulses = s.unknownOpcodePulses + 1 := rfl

/-! ## dropRand -/

@[simp] theorem dropRand_v : (s.dropRand).v = s.v := rfl
@[simp] theorem dropRand_i : (s.dropRand).i = s.i := rfl
@[simp] theorem dropRand_pc : (s.dropRand).pc = s.pc := rfl
@[simp] theorem dropRand_sp : (s.dropRand).sp = s.sp := rfl
@[simp] theorem dropRand_stack : (s.dropRand).stack = s.stack := rfl
@[simp] theorem dropRand_dt : (s.dropRand).dt = s.dt := rfl
@[simp] theorem dropRand_st : (s.dropRand).st = s.st := rfl
@[simp] theorem dropRand_keys : (s.dropRand).keys = s.keys := rfl
@[simp] theorem dropRand_haltedForKey : (s.dropRand).haltedForKey = s.haltedForKey := rfl
@[simp] theorem dropRand_pendingKeyRegister : (s.dropRand).pendingKeyRegister = s.pendingKeyRegister := rfl
@[simp] theorem dropRand_disp : (s.dropRand).disp = s.disp := rfl
@[simp] theorem dropRand_faultCause : (s.dropRand).faultCause = s.faultCause := rfl
@[simp] theorem dropRand_mem : (s.dropRand).mem = s.mem := rfl
@[simp] theorem dropRand_unknownPolicy : (s.dropRand).unknownPolicy = s.unknownPolicy := rfl
@[simp] theorem dropRand_inbox : (s.dropRand).inbox = s.inbox := rfl
@[simp] theorem dropRand_evRand : (s.dropRand).evRand = none := rfl
@[simp] theorem dropRand_randIndex : (s.dropRand).randIndex = s.randIndex := rfl
@[simp] theorem dropRand_launch : (s.dropRand).launch = s.launch := rfl
@[simp] theorem dropRand_dispChangedPulses : (s.dropRand).dispChangedPulses = s.dispChangedPulses := rfl
@[simp] theorem dropRand_unknownOpcodePulses : (s.dropRand).unknownOpcodePulses = s.unknownOpcodePulses := rfl

end Sys2Proof.Machine
end

