-- ==== Sys2Proof/Laws/Frame.lean ====
section
/-! SUPPORT. Frames: how they compose, and the frame of each shared operation. -/

namespace Sys2Proof.Machine

/-! ## Reading through an update -/

theorem getV_setV (s : State) (x y : Nibble) (b : Byte) :
    (s.setV x b).getV y = if x = y then b else s.getV y := by
  simp [State.getV, State.setV, Vector.getElem_set, BitVec.toNat_inj]

@[simp] theorem getV_setV_self (s : State) (x : Nibble) (b : Byte) : (s.setV x b).getV x = b := by
  simp [getV_setV]

theorem getV_setV_ne (s : State) {x y : Nibble} (b : Byte) (h : x ≠ y) : (s.setV x b).getV y = s.getV y := by
  simp [getV_setV, h]

theorem getV_setResultAndFlag (s : State) (x y : Nibble) (b f : Byte) :
    (s.setResultAndFlag x b f).getV y = if 0xF = y then f else if x = y then b else s.getV y := by
  simp only [State.setResultAndFlag, getV_setV]

theorem keyDown_setKey (s : State) (k j : Nibble) (b : Bool) :
    (s.setKey k b).keyDown j = if k = j then b else s.keyDown j := by
  simp [State.keyDown, State.setKey, Vector.getElem_set, BitVec.toNat_inj]

/-- A read of `V` depends on the register file only. -/
theorem getV_congr {s t : State} (h : t.v = s.v) (x : Nibble) : t.getV x = s.getV x := by
  simp only [State.getV, h]

/-- A read of memory depends on the memory and the launch only. -/
theorem readByte_congr {s t : State} (hm : t.mem = s.mem) (hl : t.launch = s.launch) (a : Nat) :
    t.readByte a = s.readByte a := by
  simp only [State.readByte, hm, hl]

/-- A read of the keypad depends on `keys` only. -/
theorem keyDown_congr {s t : State} (h : t.keys = s.keys) (k : Nibble) : t.keyDown k = s.keyDown k := by
  simp only [State.keyDown, h]

/-! ## Frames -/

theorem Part.same_refl (p : Part) (s : State) : p.same s s := by
  cases p <;> rfl

theorem Part.same_trans {p : Part} {s t u : State} (h₁ : p.same s t) (h₂ : p.same t u) : p.same s u := by
  cases p <;> exact h₂.trans h₁

theorem OnlyChanges.refl (c : Part → Prop) (s : State) : OnlyChanges c s s := fun p _ => Part.same_refl p s

/-- One operation after another changes what either of them changes. -/
theorem OnlyChanges.trans {c d : Part → Prop} {s t u : State} (h₁ : OnlyChanges c s t) (h₂ : OnlyChanges d t u) :
    OnlyChanges (fun p => c p ∨ d p) s u :=
  fun p hp => Part.same_trans (h₁ p fun h => hp (.inl h)) (h₂ p fun h => hp (.inr h))

theorem OnlyChanges.mono {c d : Part → Prop} {s t : State} (h : OnlyChanges c s t) (hcd : ∀ p, c p → d p) :
    OnlyChanges d s t := fun p hp => h p fun hc => hp (hcd p hc)

theorem setV_frame (s : State) (x : Nibble) (b : Byte) : OnlyChanges (· = .reg x) s (s.setV x b) := by
  intro p hp
  cases p with
  | reg r => exact getV_setV_ne s b fun h => hp (by rw [h])
  | _ => rfl

theorem setResultAndFlag_frame (s : State) (x : Nibble) (b f : Byte) :
    OnlyChanges (fun p => p = .reg x ∨ p = .reg 0xF) s (s.setResultAndFlag x b f) :=
  (setV_frame s x b).trans (setV_frame _ 0xF f)

theorem setI_frame (s : State) (w : Word) : OnlyChanges (· = .i) s (s.setI w) := by
  intro p hp
  cases p with
  | i => exact absurd rfl hp
  | _ => rfl

theorem setPc_frame (s : State) (w : Word) : OnlyChanges (· = .pc) s (s.setPc w) := by
  intro p hp
  cases p with
  | pc => exact absurd rfl hp
  | _ => rfl

theorem advance_frame (s : State) : OnlyChanges (· = .pc) s s.advance := setPc_frame s _

theorem skipIf_frame (s : State) (c : Bool) : OnlyChanges (· = .pc) s (s.skipIf c) := by
  cases c
  · exact setPc_frame s _
  · exact setPc_frame s _

theorem setKey_frame (s : State) (k : Nibble) (b : Bool) : OnlyChanges (· = .key k) s (s.setKey k b) := by
  intro p hp
  cases p with
  | key j =>
    have hne : k ≠ j := fun h => hp (by rw [h])
    simp [Part.same, keyDown_setKey, hne]
  | _ => rfl

theorem waitForKey_frame (s : State) (x : Nibble) :
    OnlyChanges (fun p => p = .halted ∨ p = .pending) s (s.waitForKey x) := by
  intro p hp
  cases p with
  | halted => exact absurd (.inl rfl) hp
  | pending => exact absurd (.inr rfl) hp
  | _ => rfl

/-- Drawing or clearing changes pixels and counts one pulse. -/
theorem show_frame (s : State) (d : Grid) :
    OnlyChanges (fun p => (∃ row col, p = .pixel row col) ∨ p = .dispPulses) s (s.show d) := by
  intro p hp
  cases p with
  | pixel row col => exact absurd (.inl ⟨row, col, rfl⟩) hp
  | dispPulses => exact absurd (.inr rfl) hp
  | _ => rfl

theorem pulseUnknown_frame (s : State) : OnlyChanges (· = .unknownPulses) s s.pulseUnknown := by
  intro p hp
  cases p with
  | unknownPulses => exact absurd rfl hp
  | _ => rfl

theorem useRandom_frame (s : State) : OnlyChanges (fun p => p = .evRand ∨ p = .randIndex) s s.useRandom := by
  intro p hp
  unfold State.useRandom
  split <;> cases p <;> first | rfl | exact absurd (.inl rfl) hp | exact absurd (.inr rfl) hp

/-- Taking a fault changes `fault_cause` and nothing else (R171). -/
theorem latch_frame (s : State) (c : Cause) : OnlyChanges (· = .fault) s { s with faultCause := c } := by
  intro p hp
  cases p with
  | fault => exact absurd rfl hp
  | _ => rfl

end Sys2Proof.Machine
end

