-- ==== Sys2Proof/Laws/Memory.lean ====
section
/-! SUPPORT. Memory: read after write, the canonical form, and the frame of a store. -/

namespace Sys2Proof.Machine

/-! ## One byte -/

theorem byte?_place (m : Memory) (a c : Nat) (b : Byte) :
    (Memory.place m a b).byte? c = if a = c then some b else m.byte? c := by
  induction m with
  | nil => simp [Memory.place, Memory.byte?]
  | cons d rest ih =>
    simp only [Memory.place]
    split
    · simp [Memory.byte?]
    · split
      · next h => simp only [Memory.byte?, h]; split <;> simp_all
      · next h =>
        simp only [Memory.byte?, ih]
        split <;> split <;> simp_all

theorem byte?_filter (m : Memory) (a c : Nat) :
    Memory.byte? (m.filter (fun d => d.1 != a)) c = if a = c then Memory.unlisted c else m.byte? c := by
  induction m with
  | nil => simp [Memory.byte?]
  | cons d rest ih =>
    by_cases h : d.1 = a
    · simp only [List.filter_cons, h, bne_self_eq_false, Bool.false_eq_true, if_false, ih, Memory.byte?]
      split <;> simp_all
    · simp only [List.filter_cons, bne_iff_ne, ne_eq, h, not_false_eq_true, if_true, Memory.byte?, ih]
      split <;> split <;> simp_all

/-- The law of a write, at the same place and at every other. -/
theorem byte?_write (m : Memory) (a c : Nat) (b : Byte) :
    (Memory.write m a b).byte? c = if a = c then some b else m.byte? c := by
  unfold Memory.write
  split
  · next h =>
    rw [byte?_filter]
    split
    · next hac => rw [← hac, h]
    · rfl
  · exact byte?_place m a c b

/-- The law of a store of several bytes. -/
theorem byte?_writes (m : Memory) (a c : Nat) (bytes : List Byte) :
    (Memory.writes m a bytes).byte? c =
      if h : a ≤ c ∧ c < a + bytes.length then some (bytes[c - a]'(by omega)) else m.byte? c := by
  induction bytes generalizing m a with
  | nil => simp [Memory.writes]
  | cons b rest ih =>
    simp only [Memory.writes, ih, byte?_write, List.length_cons]
    by_cases h₁ : a = c
    · subst h₁; simp
    · by_cases h₂ : a + 1 ≤ c ∧ c < a + 1 + rest.length
      · have h₃ : a ≤ c ∧ c < a + (rest.length + 1) := by omega
        have h₄ : c - a = (c - (a + 1)) + 1 := by omega
        simp only [h₂, h₃, and_self, dite_true, h₄, List.getElem_cons_succ]
      · have h₃ : ¬ (a ≤ c ∧ c < a + (rest.length + 1)) := by omega
        simp only [dif_neg h₂, dif_neg h₃, if_neg h₁]

/-! ## The canonical form -/

theorem mem_place {m : Memory} {a : Nat} {b : Byte} {c : Host.Cell} (h : c ∈ Memory.place m a b) :
    c = (a, b) ∨ c ∈ m := by
  induction m with
  | nil => simpa [Memory.place] using h
  | cons d rest ih =>
    simp only [Memory.place] at h
    split at h
    · simpa using h
    · split at h
      · rcases List.mem_cons.1 h with h | h
        · exact .inl h
        · exact .inr (List.mem_cons_of_mem _ h)
      · rcases List.mem_cons.1 h with h | h
        · exact .inr (by simp [h])
        · exact (ih h).imp id (List.mem_cons_of_mem _)

theorem place_rising {m : Memory} (h : m.Pairwise (fun c d => c.1 < d.1)) (a : Nat) (b : Byte) :
    (Memory.place m a b).Pairwise (fun c d => c.1 < d.1) := by
  induction m with
  | nil => simp [Memory.place]
  | cons d rest ih =>
    obtain ⟨hd, hrest⟩ := List.pairwise_cons.1 h
    simp only [Memory.place]
    split
    · next had =>
      refine List.pairwise_cons.2 ⟨fun c hc => ?_, h⟩
      rcases List.mem_cons.1 hc with rfl | hc
      · exact had
      · exact Nat.lt_trans had (hd c hc)
    · split
      · next hda => exact List.pairwise_cons.2 ⟨fun c hc => hda ▸ hd c hc, hrest⟩
      · refine List.pairwise_cons.2 ⟨fun c hc => ?_, ih hrest⟩
        rcases mem_place hc with rfl | hc
        · show d.1 < a
          omega
        · exact hd c hc

/-- A write inside the address space keeps the canonical form. -/
theorem wf_write {m : Memory} (h : Memory.wf m) {a : Nat} (ha : a < Config.memSize) (b : Byte) :
    Memory.wf (Memory.write m a b) := by
  unfold Memory.write
  split
  · exact ⟨h.1.filter _, fun c hc => h.2 c (List.mem_of_mem_filter hc)⟩
  · next hb =>
    refine ⟨place_rising h.1 a b, fun c hc => ?_⟩
    rcases mem_place hc with rfl | hc
    · exact ⟨ha, hb⟩
    · exact h.2 c hc

/-- A store inside the address space keeps the canonical form. -/
theorem wf_writes {m : Memory} (h : Memory.wf m) (bytes : List Byte) {a : Nat}
    (ha : a + bytes.length ≤ Config.memSize) : Memory.wf (Memory.writes m a bytes) := by
  induction bytes generalizing m a with
  | nil => exact h
  | cons b rest ih =>
    simp only [List.length_cons] at ha
    exact ih (wf_write h (by omega) b) (by omega)

/-- The launch memory is canonical, whatever the image lists inside the address space. -/
theorem wf_loadImage {image : List Host.Cell} (h : imageInRange image = true) : Memory.wf (loadImage image) := by
  have key : ∀ (l : List Host.Cell) (m : Memory), (∀ c ∈ l, c.1 < Config.memSize) → Memory.wf m →
      Memory.wf (l.foldl (fun m c => Memory.write m c.1 c.2) m) := by
    intro l
    induction l with
    | nil => intro m _ hm; exact hm
    | cons c rest ih =>
      intro m hl hm
      exact ih _ (fun d hd => hl d (List.mem_cons_of_mem _ hd)) (wf_write hm (hl c (List.mem_cons_self ..)) c.2)
  refine key image [] (fun c hc => ?_) ⟨.nil, by simp⟩
  have := List.all_eq_true.1 h c hc
  simp only [Bool.and_eq_true, decide_eq_true_eq] at this
  exact this.2

/-- The launch memory, address by address: the last pair of the image there, else what the unlisted address holds (R200, R202). -/
theorem byte?_loadImage (image : List Host.Cell) (a : Nat) :
    (loadImage image).byte? a = ((image.reverse.find? (fun c => c.1 == a)).map (fun c => c.2)).or (Memory.unlisted a) := by
  unfold loadImage
  induction image using List.reverseRecOn with
  | nil => rfl
  | append_singleton front c ih =>
    rw [List.foldl_append, List.foldl_cons, List.foldl_nil, byte?_write, ih, List.reverse_append, List.reverse_singleton,
      List.singleton_append, List.find?_cons]
    by_cases h : c.1 = a
    · simp [h]
    · rw [if_neg h, beq_false_of_ne h]

/-- Two canonical memories that hold the same are the same data. -/
theorem wf_ext {m n : Memory} (hm : Memory.wf m) (hn : Memory.wf n) (h : ∀ a, m.byte? a = n.byte? a) : m = n := by
  have miss : ∀ (l : Memory) (a : Nat), (∀ c ∈ l, a < c.1) → Memory.byte? l a = Memory.unlisted a := by
    intro l a hl
    induction l with
    | nil => rfl
    | cons c rest ih =>
      have hc := hl c (List.mem_cons_self ..)
      simp only [Memory.byte?, Nat.ne_of_gt hc, if_false]
      exact ih fun d hd => hl d (List.mem_cons_of_mem _ hd)
  induction m generalizing n with
  | nil =>
    cases n with
    | nil => rfl
    | cons d rest =>
      have := h d.1
      simp only [Memory.byte?, if_true] at this
      exact absurd this (hn.2 d (List.mem_cons_self ..)).2
  | cons c rest ih =>
    obtain ⟨hc, hrest⟩ := List.pairwise_cons.1 hm.1
    cases n with
    | nil =>
      have := h c.1
      simp only [Memory.byte?, if_true] at this
      exact absurd this.symm (hm.2 c (List.mem_cons_self ..)).2
    | cons d rest' =>
      obtain ⟨hd, hrest'⟩ := List.pairwise_cons.1 hn.1
      have hcd : c.1 = d.1 := by
        rcases Nat.lt_trichotomy c.1 d.1 with hlt | heq | hlt
        · have := h c.1
          rw [miss (d :: rest') c.1 (fun e he => by
            rcases List.mem_cons.1 he with rfl | he
            · exact hlt
            · exact Nat.lt_trans hlt (hd e he))] at this
          simp only [Memory.byte?, if_true] at this
          exact absurd this.symm (hm.2 c (List.mem_cons_self ..)).2
        · exact heq
        · have := h d.1
          rw [miss (c :: rest) d.1 (fun e he => by
            rcases List.mem_cons.1 he with rfl | he
            · exact hlt
            · exact Nat.lt_trans hlt (hc e he))] at this
          simp only [Memory.byte?, if_true] at this
          exact absurd this (hn.2 d (List.mem_cons_self ..)).2
      have hb : c.2 = d.2 := by
        have := h c.1
        simp only [Memory.byte?, if_true, hcd] at this
        exact Option.some.inj this
      have htail : rest = rest' := by
        refine ih ⟨hrest, fun e he => hm.2 e (List.mem_cons_of_mem _ he)⟩
          ⟨hrest', fun e he => hn.2 e (List.mem_cons_of_mem _ he)⟩ fun a => ?_
        by_cases ha : c.1 = a
        · rw [miss rest a (ha ▸ hc), miss rest' a fun e he => ha ▸ hcd ▸ hd e he]
        · have := h a
          simpa only [Memory.byte?, ha, hcd ▸ ha, if_false] using this
      rw [htail, Prod.ext hcd hb]

/-! ## Through the state -/

/-- The law of a store for the machine's read of one byte. -/
theorem readByte_writes (s : State) (a c : Nat) (bytes : List Byte) :
    ({ s with mem := s.mem.writes a bytes } : State).readByte c =
      if h : a ≤ c ∧ c < a + bytes.length then bytes[c - a]'(by omega) else s.readByte c := by
  simp only [State.readByte, byte?_writes]
  split <;> rfl

/-- The frame of a store: only the stored bytes change. -/
theorem writes_frame (s : State) (a : Nat) (bytes : List Byte) :
    OnlyChanges (fun p => ∃ c, p = .mem c ∧ a ≤ c ∧ c < a + bytes.length) s { s with mem := s.mem.writes a bytes } := by
  intro p hp
  cases p with
  | mem c =>
    have hc : ¬ (a ≤ c ∧ c < a + bytes.length) := fun h => hp ⟨c, rfl, h⟩
    simp [Part.same, readByte_writes, hc]
  | _ => rfl

/-- The range check of R55: no byte, or every byte inside memory. -/
@[simp] theorem accessInRange_iff (a n : Nat) : accessInRange a n = true ↔ n = 0 ∨ a + n ≤ Config.memSize := by
  simp [accessInRange]

/-- What `MemWrite` can do (R55). -/
theorem memWrite_eq_some {s t : State} {a : Nat} {bytes : List Byte} :
    s.memWrite a bytes = some t ↔
      (bytes = [] ∨ a + bytes.length ≤ Config.memSize) ∧ t = { s with mem := s.mem.writes a bytes } := by
  simp only [State.memWrite, accessInRange_iff, List.length_eq_zero_iff]
  split <;> simp [*, eq_comm]

theorem memWrite_eq_none {s : State} {a : Nat} {bytes : List Byte} :
    s.memWrite a bytes = none ↔ bytes ≠ [] ∧ Config.memSize < a + bytes.length := by
  simp only [State.memWrite, accessInRange_iff, List.length_eq_zero_iff, ite_eq_right_iff, reduceCtorEq, imp_false, not_or,
    not_le, ne_eq]

/-- What `MemRead` can do (R55). -/
theorem memRead_eq_some {s : State} {a n : Nat} {bytes : List Byte} :
    s.memRead a n = some bytes ↔ (n = 0 ∨ a + n ≤ Config.memSize) ∧ bytes = s.readBytes a n := by
  simp only [State.memRead, accessInRange_iff]
  split <;> simp [*, eq_comm]

theorem memRead_eq_none {s : State} {a n : Nat} : s.memRead a n = none ↔ n ≠ 0 ∧ Config.memSize < a + n := by
  simp only [State.memRead, accessInRange_iff, ite_eq_right_iff, reduceCtorEq, imp_false, not_or, not_le, ne_eq]

@[simp] theorem readBytes_length (s : State) (a n : Nat) : (s.readBytes a n).length = n := by
  simp [State.readBytes]

@[simp] theorem readBytes_getElem (s : State) (a n k : Nat) (h : k < (s.readBytes a n).length) :
    (s.readBytes a n)[k] = s.readByte (a + k) := by
  simp [State.readBytes]

/-- The fetch reads two bytes, the high one first, or is out of range (R43, R46). -/
theorem fetch_eq (s : State) :
    s.fetch = if s.pc.toNat + 2 ≤ Config.memSize
      then some (wordOfBytes (s.readByte s.pc.toNat) (s.readByte (s.pc.toNat + 1))) else none := by
  simp only [State.fetch, State.memRead, accessInRange_iff]
  split <;> simp_all [State.readBytes, List.range_succ]

end Sys2Proof.Machine
end

