-- ==== Sys2Proof/Laws/Ops.lean ====
section
/-! SUPPORT. One lemma per shared operation: everything it can do. -/

namespace Sys2Proof.Machine

/-! ## Call stack -/

/-- What a push can do (R15). -/
theorem push?_cases (s : State) (w : Word) :
    (s.sp.val = 16 ∧ s.push? w = none) ∨
      ∃ (h : s.sp.val < 16) (t : State), s.push? w = some t ∧
        t = { s with stack := s.stack.set s.sp.val w h, sp := ⟨s.sp.val + 1, Nat.succ_lt_succ h⟩ } := by
  unfold State.push?
  split
  · next h => exact .inr ⟨h, _, rfl, rfl⟩
  · next h => exact .inl ⟨by have := s.sp.isLt; omega, rfl⟩

/-- What a pop can do (R15, R101). -/
theorem pop?_cases (s : State) :
    (s.sp.val = 0 ∧ s.pop? = none) ∨
      ∃ (_ : 0 < s.sp.val) (h₁ : s.sp.val - 1 < 16) (h₂ : s.sp.val - 1 < 17),
        s.pop? = some (s.stack[s.sp.val - 1], { s with sp := ⟨s.sp.val - 1, h₂⟩ }) := by
  unfold State.pop?
  split
  · next h => exact .inr ⟨h, by have := s.sp.isLt; omega, by have := s.sp.isLt; omega, rfl⟩
  · next h => exact .inl ⟨by omega, rfl⟩

/-! ## Operands -/

/-- What the key operand can be (R163). -/
theorem keyOperand_cases (s : State) (x : Nibble) :
    (15 < (s.getV x).toNat ∧ s.keyOperand x = none) ∨
      ∃ k : Nibble, s.keyOperand x = some k ∧ k.toNat = (s.getV x).toNat := by
  unfold State.keyOperand
  split
  · next h => exact .inr ⟨_, rfl, by rw [BitVec.toNat_setWidth]; omega⟩
  · next h => exact .inl ⟨by omega, rfl⟩

/-- What the base of a block copy can be (R144, R145). -/
theorem blockOperand_cases (s : State) (x : Nibble) :
    (15 < s.i.toNat + x.toNat ∧ s.blockOperand x = none) ∨
      (s.i.toNat + x.toNat ≤ 15 ∧ s.blockOperand x = some s.i.toNat) := by
  unfold State.blockOperand
  split
  · next h => exact .inr ⟨h, rfl⟩
  · next h => exact .inl ⟨by omega, rfl⟩

/-- What the bytes of a sprite can be (R151). -/
theorem spriteOperand_cases (s : State) (n : Nibble) :
    (n ≠ 0 ∧ Config.memSize < s.i.toNat + n.toNat ∧ s.spriteOperand n = none) ∨
      ((n = 0 ∨ s.i.toNat + n.toNat ≤ Config.memSize) ∧ s.spriteOperand n = some (s.readBytes s.i.toNat n.toNat)) := by
  have hn : n.toNat = 0 ↔ n = 0 := by rw [← BitVec.toNat_inj]; rfl
  cases h : s.spriteOperand n with
  | none =>
    obtain ⟨h₀, h₁⟩ := memRead_eq_none.1 h
    exact .inl ⟨fun e => h₀ (hn.2 e), h₁, rfl⟩
  | some bytes =>
    obtain ⟨h₀, rfl⟩ := memRead_eq_some.1 h
    exact .inr ⟨h₀.imp_left hn.1, rfl⟩

@[simp] theorem blockRegs_length (s : State) (first n : Nat) : (s.blockRegs first n).length = n := by
  simp [State.blockRegs]

@[simp] theorem blockRegs_getElem (s : State) (first n k : Nat) (h : k < (s.blockRegs first n).length) :
    (s.blockRegs first n)[k] = s.getV (BitVec.ofNat 4 (first + k)) := by
  simp [State.blockRegs]

/-! ## Block load -/

/-- A block load writes the register file and nothing else. -/
theorem setRegs_eq (s : State) (first : Nat) (bytes : List Byte) :
    s.setRegs first bytes = { s with v := (s.setRegs first bytes).v } := by
  induction bytes generalizing s first with
  | nil => rfl
  | cons b rest ih =>
    simp only [State.setRegs]
    rw [ih]
    rfl

/-- The registers after a block load that stays inside the register file. -/
theorem getV_setRegs (s : State) (first : Nat) (bytes : List Byte) (hb : first + bytes.length ≤ 16) (y : Nibble) :
    (s.setRegs first bytes).getV y =
      if h : first ≤ y.toNat ∧ y.toNat < first + bytes.length then bytes[y.toNat - first]'(by omega) else s.getV y := by
  induction bytes generalizing s first with
  | nil =>
    have h : ¬ (first ≤ y.toNat ∧ y.toNat < first + ([] : List Byte).length) := by
      simp only [List.length_nil]; omega
    simp only [State.setRegs, dif_neg h]
  | cons b rest ih =>
    simp only [List.length_cons] at hb
    simp only [State.setRegs, ih (s.setV _ b) (first + 1) (by omega), getV_setV, List.length_cons]
    have hf : (BitVec.ofNat 4 first).toNat = first := by
      rw [BitVec.toNat_ofNat]; omega
    by_cases h₁ : first = y.toNat
    · have hy : BitVec.ofNat 4 first = y := BitVec.eq_of_toNat_eq (hf.trans h₁)
      have h₂ : ¬ (first + 1 ≤ y.toNat ∧ y.toNat < first + 1 + rest.length) := by omega
      have h₃ : first ≤ y.toNat ∧ y.toNat < first + (rest.length + 1) := by omega
      have h₄ : y.toNat - first = 0 := by omega
      simp only [dif_neg h₂, dif_pos h₃, if_pos hy, h₄, List.getElem_cons_zero]
    · have hy : BitVec.ofNat 4 first ≠ y := fun h => h₁ (by rw [← h, hf])
      by_cases h₂ : first + 1 ≤ y.toNat ∧ y.toNat < first + 1 + rest.length
      · have h₃ : first ≤ y.toNat ∧ y.toNat < first + (rest.length + 1) := by omega
        have h₄ : y.toNat - first = (y.toNat - (first + 1)) + 1 := by omega
        simp only [dif_pos h₂, dif_pos h₃, h₄, List.getElem_cons_succ]
      · have h₃ : ¬ (first ≤ y.toNat ∧ y.toNat < first + (rest.length + 1)) := by omega
        simp only [dif_neg h₂, dif_neg h₃, if_neg hy]

/-- The frame of a block load that stays inside the register file. -/
theorem setRegs_frame (s : State) (first : Nat) (bytes : List Byte) (hb : first + bytes.length ≤ 16) :
    OnlyChanges (fun p => ∃ r : Nibble, p = .reg r ∧ first ≤ r.toNat ∧ r.toNat < first + bytes.length) s
      (s.setRegs first bytes) := by
  intro p hp
  cases p with
  | reg r =>
    have h : ¬ (first ≤ r.toNat ∧ r.toNat < first + bytes.length) := fun h => hp ⟨r, rfl, h⟩
    simp only [Part.same, getV_setRegs s first bytes hb, dif_neg h]
  | _ => rw [setRegs_eq]; rfl

/-! ## Flags -/

/-- A flag is 0 or 1 (R12). -/
theorem flagByte_cases (b : Bool) : flagByte b = 0 ∨ flagByte b = 1 := by
  cases b
  · exact .inl rfl
  · exact .inr rfl

theorem lowBitFlag_toNat (a : Byte) : (lowBitFlag a).toNat = a.toNat % 2 := by
  simp [lowBitFlag, Nat.and_one_is_mod]

theorem highBitFlag_toNat (a : Byte) : (highBitFlag a).toNat = a.toNat / 128 := by
  simp [highBitFlag, Nat.shiftRight_eq_div_pow]

/-! ## The instruction cycle and the events -/

/-- Everything a STEP can do (R71): gated, a fetch fault, an unknown word, or the decoded instruction. -/
theorem cycle_cases (s : State) :
    (s.gated = true ∧ cycle s = .next s) ∨
      (s.gated = false ∧ Config.memSize < s.pc.toNat + 2 ∧ cycle s = raise .memoryAddressOutOfRange s) ∨
      ∃ raw, s.gated = false ∧ s.pc.toNat + 2 ≤ Config.memSize ∧ s.fetch = some raw ∧
        ((decodeWord raw = .error (.unknownOpcode raw) ∧ cycle s = unknownWord s) ∨
          ∃ i, decodeWord raw = .ok i ∧ cycle s = exec i s) := by
  cases hg : s.gated with
  | true => exact .inl ⟨rfl, by simp [cycle, hg]⟩
  | false =>
    refine .inr ?_
    have hc : cycle s = fetchAndRun s := by simp [cycle, hg]
    rw [hc]
    unfold fetchAndRun
    by_cases h : s.pc.toNat + 2 ≤ Config.memSize
    · have hf := fetch_eq s
      rw [if_pos h] at hf
      refine .inr ⟨_, rfl, h, hf, ?_⟩
      simp only [hf, decodeWord]
      generalize wordOfBytes (s.readByte s.pc.toNat) (s.readByte (s.pc.toNat + 1)) = raw
      cases classify raw with
      | none => exact .inl ⟨rfl, rfl⟩
      | some i => exact .inr ⟨i, rfl, rfl⟩
    · refine .inl ⟨rfl, by omega, ?_⟩
      rw [fetch_eq, if_neg h]

/-- A latched fault or a key wait closes the gate (R71). -/
theorem gated_eq_false {s : State} : s.gated = false ↔ s.faultCause = .noFault ∧ s.haltedForKey = false := by
  simp [State.gated]

end Sys2Proof.Machine
end

