-- ==== Sys2Proof/Laws/Exec.lean ====
section
/-! SUPPORT. Everything the execution of an instruction can answer: a fault taken from the unchanged state (R171), or a next
state in which the latch is as before. -/

namespace Sys2Proof.Machine

/-- Reading through the advance of `PC`. -/
@[simp] theorem getV_advance (s : State) (x : Nibble) : s.advance.getV x = s.getV x := rfl
@[simp] theorem readByte_advance (s : State) (a : Nat) : s.advance.readByte a = s.readByte a := rfl
@[simp] theorem getV_setI (s : State) (w : Word) (x : Nibble) : (s.setI w).getV x = s.getV x := rfl
@[simp] theorem readByte_setI (s : State) (w : Word) (a : Nat) : (s.setI w).readByte a = s.readByte a := rfl
@[simp] theorem getV_setPc (s : State) (w : Word) (x : Nibble) : (s.setPc w).getV x = s.getV x := rfl
@[simp] theorem readByte_setPc (s : State) (w : Word) (a : Nat) : (s.setPc w).readByte a = s.readByte a := rfl

/-- The end of a skip, both ways (R72). -/
theorem skipIf_pc (s : State) (c : Bool) : (s.skipIf c).pc = if c then s.pc + 4 else s.pc + 2 := by
  cases c <;> rfl

/-- The cause a fault of an instruction has (R179): never none, and never the one that belongs to an unknown word. -/
def Cause.ofInstruction (c : Cause) : Prop := c ≠ .noFault ∧ c ≠ .unknownOpcode

/-- What any instruction can answer. -/
theorem exec_cases (i : Instr) (s : State) :
    (∃ c : Cause, c.ofInstruction ∧ exec i s = raise c s) ∨
      ∃ t, exec i s = .next t ∧ t.faultCause = s.faultCause := by
  have done : ∀ {o : Outcome} {t : State}, o = .next t → t.faultCause = s.faultCause →
      (∃ c : Cause, c.ofInstruction ∧ o = raise c s) ∨ ∃ t, o = .next t ∧ t.faultCause = s.faultCause :=
    fun h h' => .inr ⟨_, h, h'⟩
  have stop : ∀ {o : Outcome} (c : Cause), c.ofInstruction → o = raise c s →
      (∃ c : Cause, c.ofInstruction ∧ o = raise c s) ∨ ∃ t, o = .next t ∧ t.faultCause = s.faultCause :=
    fun c hc h => .inl ⟨c, hc, h⟩
  have skips : ∀ c, (s.skipIf c).faultCause = s.faultCause := fun c => by cases c <;> rfl
  cases i with
  | sys nnn => exact stop .unsupportedSys ⟨by decide, by decide⟩ rfl
  | ret =>
    obtain ⟨-, h⟩ | ⟨_, _, _, h⟩ := pop?_cases s
    · exact stop .stackUnderflow ⟨by decide, by decide⟩ (by simp only [exec, execRet, h])
    · refine .inr ?_
      simp only [exec, execRet, h]
      exact ⟨_, rfl, rfl⟩
  | call nnn =>
    obtain ⟨-, h⟩ | ⟨_, t, h, rfl⟩ := push?_cases s (s.pc + 2)
    · exact stop .stackOverflow ⟨by decide, by decide⟩ (by simp only [exec, execCall, h])
    · refine .inr ?_
      simp only [exec, execCall, h]
      exact ⟨_, rfl, rfl⟩
  | seByte x kk => exact done rfl (skips _)
  | sneByte x kk => exact done rfl (skips _)
  | seReg x y => exact done rfl (skips _)
  | sneReg x y => exact done rfl (skips _)
  | skp x =>
    obtain ⟨-, h⟩ | ⟨k, h, -⟩ := keyOperand_cases s x
    · exact stop .keyIndexOutOfRange ⟨by decide, by decide⟩ (by simp only [exec, execSkp, h])
    · refine .inr ?_
      simp only [exec, execSkp, h]
      exact ⟨_, rfl, skips _⟩
  | sknp x =>
    obtain ⟨-, h⟩ | ⟨k, h, -⟩ := keyOperand_cases s x
    · exact stop .keyIndexOutOfRange ⟨by decide, by decide⟩ (by simp only [exec, execSknp, h])
    · refine .inr ?_
      simp only [exec, execSknp, h]
      exact ⟨_, rfl, skips _⟩
  | drw x y n =>
    obtain ⟨-, -, h⟩ | ⟨-, h⟩ := spriteOperand_cases s n
    · exact stop .memoryAddressOutOfRange ⟨by decide, by decide⟩ (by simp only [exec, execDrw, h])
    · refine .inr ?_
      simp only [exec, execDrw, h]
      exact ⟨_, rfl, rfl⟩
  | ldB x =>
    cases h : s.memWrite s.i.toNat (decimalDigits (s.getV x)) with
    | none => exact stop .memoryAddressOutOfRange ⟨by decide, by decide⟩ (by simp only [exec, execLdB, h])
    | some t =>
      obtain ⟨-, rfl⟩ := memWrite_eq_some.1 h
      refine .inr ?_
      simp only [exec, execLdB, h]
      exact ⟨_, rfl, rfl⟩
  | ldStore x =>
    obtain ⟨-, h⟩ | ⟨-, h⟩ := blockOperand_cases s x
    · exact stop .registerIndexOutOfRange ⟨by decide, by decide⟩ (by simp only [exec, execLdStore, h])
    · refine .inr ?_
      simp only [exec, execLdStore, h]
      exact ⟨_, rfl, rfl⟩
  | ldLoad x =>
    obtain ⟨-, h⟩ | ⟨-, h⟩ := blockOperand_cases s x
    · exact stop .registerIndexOutOfRange ⟨by decide, by decide⟩ (by simp only [exec, execLdLoad, h])
    · refine .inr ?_
      simp only [exec, execLdLoad, h]
      refine ⟨_, rfl, ?_⟩
      rw [setRegs_eq]
      rfl
  | rnd x kk =>
    refine done rfl (show s.useRandom.faultCause = s.faultCause from ?_)
    unfold State.useRandom
    split <;> rfl
  | cls => exact done rfl rfl
  | jp nnn => exact done rfl rfl
  | ldByte x kk => exact done rfl rfl
  | addByte x kk => exact done rfl rfl
  | ldReg x y => exact done rfl rfl
  | orReg x y => exact done rfl rfl
  | andReg x y => exact done rfl rfl
  | xorReg x y => exact done rfl rfl
  | addReg x y => exact done rfl rfl
  | sub x y => exact done rfl rfl
  | shr x y => exact done rfl rfl
  | subn x y => exact done rfl rfl
  | shl x y => exact done rfl rfl
  | ldI nnn => exact done rfl rfl
  | jpV0 nnn => exact done rfl rfl
  | ldVxDT x => exact done rfl rfl
  | ldVxK x => exact done rfl rfl
  | ldDTVx x => exact done rfl rfl
  | ldSTVx x => exact done rfl rfl
  | addI x => exact done rfl rfl
  | ldF x => exact done rfl rfl

end Sys2Proof.Machine
end

