-- ==== Sys2Proof/Laws/PerInstr.lean ====
section
/-! SUPPORT. Statements about every instruction as syntax, one lemma per constructor. `OwnRow`: the word the encoder gives a
well-formed instruction matches a row of the opcode map that builds that instruction again (spec/30_encoding.md R64, R66). -/

namespace Sys2Proof

theorem rowNNN_encNNN (op : Nibble) (mk : Addr → Instr) (nnn : Addr) :
    (rowNNN (encNNN op 0) mk).matches (encNNN op nnn) = true ∧
      (rowNNN (encNNN op 0) mk).build (encNNN op nnn) = mk nnn := by
  constructor
  · simp [rowNNN, OpcodeRow.matches, encNNN_and]
  · simp [rowNNN]

theorem rowXKK_encXKK (op : Nibble) (mk : Nibble → Byte → Instr) (x : Nibble) (kk : Byte) :
    (rowXKK (encNNN op 0) mk).matches (encXKK op x kk) = true ∧
      (rowXKK (encNNN op 0) mk).build (encXKK op x kk) = mk x kk := by
  constructor
  · simp [rowXKK, OpcodeRow.matches, encXKK_and_op]
  · simp [rowXKK]

theorem rowXY_encXYN (op n : Nibble) (mk : Nibble → Nibble → Instr) (x y : Nibble) :
    (rowXY (encXYN op 0 0 n) mk).matches (encXYN op x y n) = true ∧
      (rowXY (encXYN op 0 0 n) mk).build (encXYN op x y n) = mk x y := by
  constructor
  · simp [rowXY, OpcodeRow.matches, encXYN_and_n]
  · simp [rowXY]

theorem rowXYN_encXYN (op : Nibble) (mk : Nibble → Nibble → Nibble → Instr) (x y n : Nibble) :
    (rowXYN (encNNN op 0) mk).matches (encXYN op x y n) = true ∧
      (rowXYN (encNNN op 0) mk).build (encXYN op x y n) = mk x y n := by
  constructor
  · simp [rowXYN, OpcodeRow.matches, encXYN_and_op]
  · simp [rowXYN]

theorem rowX_encXKK (op : Nibble) (kk : Byte) (mk : Nibble → Instr) (x : Nibble) :
    (rowX (encXKK op 0 kk) mk).matches (encXKK op x kk) = true ∧
      (rowX (encXKK op 0 kk) mk).build (encXKK op x kk) = mk x := by
  constructor
  · simp [rowX, OpcodeRow.matches, encXKK_and_kk]
  · simp [rowX]

/-- The instruction's own word matches a row of the opcode map, and the row builds the instruction. -/
def Laws.OwnRow.Statement (i : Instr) : Prop :=
  i.wellFormed = true → ∃ row ∈ opcodeMap, row.matches (encode i) = true ∧ row.build (encode i) = i

/-- From a row's place in the map. -/
theorem ownRow_of_place {i : Instr} {row : OpcodeRow} (k : Nat) (hk : opcodeMap[k]? = some row)
    (h : row.matches (encode i) = true ∧ row.build (encode i) = i) : Laws.OwnRow.Statement i :=
  fun _ => ⟨row, List.mem_of_getElem? hk, h⟩

theorem encNNN_injective (op : Nibble) {a b : Addr} (h : encNNN op a = encNNN op b) : a = b := by
  rw [← fieldNNN_encNNN op a, h, fieldNNN_encNNN]

theorem Laws.OwnRow.sys (nnn : Addr) : Laws.OwnRow.Statement (.sys nnn) := by
  intro hwf
  simp only [Instr.wellFormed, Bool.and_eq_true, bne_iff_ne] at hwf
  have h₁ : encNNN 0 nnn ≠ 0x00E0#16 := fun h => hwf.1 (encNNN_injective 0 (b := 0x0E0#12) h)
  have h₂ : encNNN 0 nnn ≠ 0x00EE#16 := fun h => hwf.2 (encNNN_injective 0 (b := 0x0EE#12) h)
  refine ⟨{ rowNNN (encNNN 0 0) .sys with excludes := [0x00E0, 0x00EE] }, List.mem_of_getElem? (i := 0) rfl, ?_, ?_⟩
  · simp only [OpcodeRow.matches, rowNNN, encode, List.contains_cons, List.contains_nil, Bool.or_false,
      Bool.and_eq_true, Bool.not_eq_true', Bool.or_eq_false_iff, beq_eq_false_iff_ne]
    exact ⟨beq_iff_eq.2 (encNNN_and 0 nnn), h₁, h₂⟩
  · simp [rowNNN, encode]

theorem Laws.OwnRow.cls : Laws.OwnRow.Statement .cls := ownRow_of_place 1 rfl ⟨rfl, rfl⟩

theorem Laws.OwnRow.ret : Laws.OwnRow.Statement .ret := ownRow_of_place 2 rfl ⟨rfl, rfl⟩

theorem Laws.OwnRow.jp (nnn : Addr) : Laws.OwnRow.Statement (.jp nnn) :=
  ownRow_of_place 3 rfl (rowNNN_encNNN _ _ nnn)

theorem Laws.OwnRow.call (nnn : Addr) : Laws.OwnRow.Statement (.call nnn) :=
  ownRow_of_place 4 rfl (rowNNN_encNNN _ _ nnn)

theorem Laws.OwnRow.seByte (x : Nibble) (kk : Byte) : Laws.OwnRow.Statement (.seByte x kk) :=
  ownRow_of_place 5 rfl (rowXKK_encXKK _ _ x kk)

theorem Laws.OwnRow.sneByte (x : Nibble) (kk : Byte) : Laws.OwnRow.Statement (.sneByte x kk) :=
  ownRow_of_place 6 rfl (rowXKK_encXKK _ _ x kk)

theorem Laws.OwnRow.seReg (x y : Nibble) : Laws.OwnRow.Statement (.seReg x y) :=
  ownRow_of_place 7 rfl (rowXY_encXYN _ _ _ x y)

theorem Laws.OwnRow.ldByte (x : Nibble) (kk : Byte) : Laws.OwnRow.Statement (.ldByte x kk) :=
  ownRow_of_place 8 rfl (rowXKK_encXKK _ _ x kk)

theorem Laws.OwnRow.addByte (x : Nibble) (kk : Byte) : Laws.OwnRow.Statement (.addByte x kk) :=
  ownRow_of_place 9 rfl (rowXKK_encXKK _ _ x kk)

theorem Laws.OwnRow.ldReg (x y : Nibble) : Laws.OwnRow.Statement (.ldReg x y) :=
  ownRow_of_place 10 rfl (rowXY_encXYN _ _ _ x y)

theorem Laws.OwnRow.orReg (x y : Nibble) : Laws.OwnRow.Statement (.orReg x y) :=
  ownRow_of_place 11 rfl (rowXY_encXYN _ _ _ x y)

theorem Laws.OwnRow.andReg (x y : Nibble) : Laws.OwnRow.Statement (.andReg x y) :=
  ownRow_of_place 12 rfl (rowXY_encXYN _ _ _ x y)

theorem Laws.OwnRow.xorReg (x y : Nibble) : Laws.OwnRow.Statement (.xorReg x y) :=
  ownRow_of_place 13 rfl (rowXY_encXYN _ _ _ x y)

theorem Laws.OwnRow.addReg (x y : Nibble) : Laws.OwnRow.Statement (.addReg x y) :=
  ownRow_of_place 14 rfl (rowXY_encXYN _ _ _ x y)

theorem Laws.OwnRow.sub (x y : Nibble) : Laws.OwnRow.Statement (.sub x y) :=
  ownRow_of_place 15 rfl (rowXY_encXYN _ _ _ x y)

theorem Laws.OwnRow.shr (x y : Nibble) : Laws.OwnRow.Statement (.shr x y) :=
  ownRow_of_place 16 rfl (rowXY_encXYN _ _ _ x y)

theorem Laws.OwnRow.subn (x y : Nibble) : Laws.OwnRow.Statement (.subn x y) :=
  ownRow_of_place 17 rfl (rowXY_encXYN _ _ _ x y)

theorem Laws.OwnRow.shl (x y : Nibble) : Laws.OwnRow.Statement (.shl x y) :=
  ownRow_of_place 18 rfl (rowXY_encXYN _ _ _ x y)

theorem Laws.OwnRow.sneReg (x y : Nibble) : Laws.OwnRow.Statement (.sneReg x y) :=
  ownRow_of_place 19 rfl (rowXY_encXYN _ _ _ x y)

theorem Laws.OwnRow.ldI (nnn : Addr) : Laws.OwnRow.Statement (.ldI nnn) :=
  ownRow_of_place 20 rfl (rowNNN_encNNN _ _ nnn)

theorem Laws.OwnRow.jpV0 (nnn : Addr) : Laws.OwnRow.Statement (.jpV0 nnn) :=
  ownRow_of_place 21 rfl (rowNNN_encNNN _ _ nnn)

theorem Laws.OwnRow.rnd (x : Nibble) (kk : Byte) : Laws.OwnRow.Statement (.rnd x kk) :=
  ownRow_of_place 22 rfl (rowXKK_encXKK _ _ x kk)

theorem Laws.OwnRow.drw (x y n : Nibble) : Laws.OwnRow.Statement (.drw x y n) :=
  ownRow_of_place 23 rfl (rowXYN_encXYN _ _ x y n)

theorem Laws.OwnRow.skp (x : Nibble) : Laws.OwnRow.Statement (.skp x) :=
  ownRow_of_place 24 rfl (rowX_encXKK _ _ _ x)

theorem Laws.OwnRow.sknp (x : Nibble) : Laws.OwnRow.Statement (.sknp x) :=
  ownRow_of_place 25 rfl (rowX_encXKK _ _ _ x)

theorem Laws.OwnRow.ldVxDT (x : Nibble) : Laws.OwnRow.Statement (.ldVxDT x) :=
  ownRow_of_place 26 rfl (rowX_encXKK _ _ _ x)

theorem Laws.OwnRow.ldVxK (x : Nibble) : Laws.OwnRow.Statement (.ldVxK x) :=
  ownRow_of_place 27 rfl (rowX_encXKK _ _ _ x)

theorem Laws.OwnRow.ldDTVx (x : Nibble) : Laws.OwnRow.Statement (.ldDTVx x) :=
  ownRow_of_place 28 rfl (rowX_encXKK _ _ _ x)

theorem Laws.OwnRow.ldSTVx (x : Nibble) : Laws.OwnRow.Statement (.ldSTVx x) :=
  ownRow_of_place 29 rfl (rowX_encXKK _ _ _ x)

theorem Laws.OwnRow.addI (x : Nibble) : Laws.OwnRow.Statement (.addI x) :=
  ownRow_of_place 30 rfl (rowX_encXKK _ _ _ x)

theorem Laws.OwnRow.ldF (x : Nibble) : Laws.OwnRow.Statement (.ldF x) :=
  ownRow_of_place 31 rfl (rowX_encXKK _ _ _ x)

theorem Laws.OwnRow.ldB (x : Nibble) : Laws.OwnRow.Statement (.ldB x) :=
  ownRow_of_place 32 rfl (rowX_encXKK _ _ _ x)

theorem Laws.OwnRow.ldStore (x : Nibble) : Laws.OwnRow.Statement (.ldStore x) :=
  ownRow_of_place 33 rfl (rowX_encXKK _ _ _ x)

theorem Laws.OwnRow.ldLoad (x : Nibble) : Laws.OwnRow.Statement (.ldLoad x) :=
  ownRow_of_place 34 rfl (rowX_encXKK _ _ _ x)

end Sys2Proof
end

