-- ==== Sys2Proof/Laws/Sprite.lean ====
section
/-! SUPPORT. The sprite engine's single pixel. -/

namespace Sys2Proof.Machine

/-- A toggle flips its own pixel and leaves every other alone (R152). -/
theorem pixel_toggle (d : Grid) (row r : Fin 32) (col c : Fin 64) :
    (d.toggle row col).pixel r c = if row = r ∧ col = c then !d.pixel r c else d.pixel r c := by
  simp only [Grid.pixel, Grid.toggle, Vector.getElem_set, Fin.ext_iff]
  by_cases hr : row.val = r.val
  · by_cases hc : col.val = c.val <;> simp [hr, hc]
  · simp [hr]

@[simp] theorem pixel_clear (r : Fin 32) (c : Fin 64) : Grid.clear.pixel r c = false := by
  simp [Grid.pixel, Grid.clear]

/-- Two pictures with the same pixels are the same. -/
theorem grid_ext {d e : Grid} (h : ∀ r c, d.pixel r c = e.pixel r c) : d = e := by
  refine Vector.ext fun r hr => Vector.ext fun c hc => ?_
  exact h ⟨r, hr⟩ ⟨c, hc⟩

/-- What the inner loop's body does to a pixel (R152). -/
theorem pixel_drawBit (b : Byte) (x : Nat) (row r : Fin 32) (j : Nat) (acc : Grid × Bool) (c : Fin 64) :
    (drawBit b x row j acc).1.pixel r c =
      ((spriteBit b j && decide (row = r ∧ wrapCol (x + j) = c)) ^^ acc.1.pixel r c) := by
  unfold drawBit
  split
  · next h =>
    rw [pixel_toggle, h]
    split <;> simp [*]
  · next h => simp [h]

/-- What the inner loop's body does to the collision (R153). -/
theorem collided_drawBit (b : Byte) (x : Nat) (row : Fin 32) (j : Nat) (acc : Grid × Bool) :
    (drawBit b x row j acc).2 = (acc.2 || (spriteBit b j && acc.1.pixel row (wrapCol (x + j)))) := by
  unfold drawBit
  split <;> simp [*]

end Sys2Proof.Machine
end

