-- ==== Sys2Proof/Tests/Slice0.lean ====
section
/-! SUPPORT. The model's own tests. Each expected value is a row of spec/95_test_vectors.md (named F1, A14, M3, … in the
comment before it) or a bit pattern written out from spec/30_encoding.md section 3; none comes from a run of the model. Then,
for each statement that has hypotheses, a witness: states and operands that meet them, at the ends of each clause's range. -/

open Sys2Proof Sys2Proof.Machine

namespace Sys2Proof.Tests

/-! ## Helpers -/

/-- The reset state with these registers. -/
def regs (l : List (Nibble × Byte)) : State := l.foldl (fun s p => s.setV p.1 p.2) State.reset

/-- With these bytes from `a` on. -/
def bytesAt (a : Nat) (bytes : List Byte) (s : State) : State := { s with mem := s.mem.writes a bytes }

/-- With the pixel set. -/
def pixelAt (row : Fin 32) (col : Fin 64) (s : State) : State := { s with disp := s.disp.toggle row col }

/-- What `f` reads after one step on a word placed at `PC`. -/
def after {α : Type} (w : Nat) (s : State) (f : State → α) : Option α :=
  match step (s.withFetchWord 16 w) with
  | .next t => some (f t)
  | _ => none

/-- What `f` reads after one event. -/
def afterEvent {α : Type} (e : Event) (s : State) (f : State → α) : Option α :=
  match step { s with inbox := [e] } with
  | .next t => some (f t)
  | _ => none

/-- How many pixels are set. -/
def pixelCount (s : State) : Nat := (s.disp.toList.map (fun row => row.toList.count true)).sum

/-- The reset state with `I`. -/
def withI (i : Word) : State := { State.reset with i := i }

/-- The reset state with `PC`. -/
def withPc (pc : Word) : State := { State.reset with pc := pc }

/-- The reset state with `SP`. -/
def withSp (sp : Fin 17) : State := { State.reset with sp := sp }

/-- The reset state in a key wait for `V[x]`. -/
def waiting (x : Nibble) : State := { State.reset with haltedForKey := true, pendingKeyRegister := x }

/-! ## Well-formedness -/

theorem test_sys_cls_word_ill_formed : (Instr.sys 0x0E0).wellFormed = false := by decide
theorem test_sys_ret_word_ill_formed : (Instr.sys 0x0EE).wellFormed = false := by decide
theorem test_sys_neighbours_well_formed :
    (Instr.sys 0x0E1).wellFormed = true ∧ (Instr.sys 0x0EF).wellFormed = true ∧ Instr.cls.wellFormed = true := by decide

/-! ## Decoding: the words of spec/95_test_vectors.md, and the all-ones operands of the map's formats -/

theorem test_decode_flow :
    decodeTableWord 16 0x0123 = some (.sys 0x123) ∧ decodeTableWord 16 0x00E1 = some (.sys 0x0E1) ∧
    decodeTableWord 16 0x00EE = some .ret ∧ decodeTableWord 16 0x1FFF = some (.jp 0xFFF) ∧
    decodeTableWord 16 0x2ABC = some (.call 0xABC) ∧ decodeTableWord 16 0x332A = some (.seByte 3 0x2A) ∧
    decodeTableWord 16 0x432A = some (.sneByte 3 0x2A) ∧ decodeTableWord 16 0x5120 = some (.seReg 1 2) ∧
    decodeTableWord 16 0x9120 = some (.sneReg 1 2) ∧ decodeTableWord 16 0xB300 = some (.jpV0 0x300) := by decide

theorem test_decode_alu :
    decodeTableWord 16 0x6A7F = some (.ldByte 0xA 0x7F) ∧ decodeTableWord 16 0x7F01 = some (.addByte 0xF 0x01) ∧
    decodeTableWord 16 0x8120 = some (.ldReg 1 2) ∧ decodeTableWord 16 0x8121 = some (.orReg 1 2) ∧
    decodeTableWord 16 0x8122 = some (.andReg 1 2) ∧ decodeTableWord 16 0x8123 = some (.xorReg 1 2) ∧
    decodeTableWord 16 0x8F14 = some (.addReg 0xF 1) ∧ decodeTableWord 16 0x8F25 = some (.sub 0xF 2) ∧
    decodeTableWord 16 0x8106 = some (.shr 1 0) ∧ decodeTableWord 16 0x8127 = some (.subn 1 2) ∧
    decodeTableWord 16 0x8F0E = some (.shl 0xF 0) ∧ decodeTableWord 16 0xC10F = some (.rnd 1 0x0F) := by decide

theorem test_decode_index_memory :
    decodeTableWord 16 0xAFFF = some (.ldI 0xFFF) ∧ decodeTableWord 16 0xFF1E = some (.addI 0xF) ∧
    decodeTableWord 16 0xF429 = some (.ldF 4) ∧ decodeTableWord 16 0xF033 = some (.ldB 0) ∧
    decodeTableWord 16 0xF255 = some (.ldStore 2) ∧ decodeTableWord 16 0xFE65 = some (.ldLoad 0xE) := by decide

theorem test_decode_display_timer_key :
    decodeTableWord 16 0x00E0 = some .cls ∧ decodeTableWord 16 0xD12A = some (.drw 1 2 0xA) ∧
    decodeTableWord 16 0xF607 = some (.ldVxDT 6) ∧ decodeTableWord 16 0xF50A = some (.ldVxK 5) ∧
    decodeTableWord 16 0xF515 = some (.ldDTVx 5) ∧ decodeTableWord 16 0xF518 = some (.ldSTVx 5) ∧
    decodeTableWord 16 0xE29E = some (.skp 2) ∧ decodeTableWord 16 0xE2A1 = some (.sknp 2) := by decide

/-- U1, U3 to U10. -/
theorem test_decode_unknown :
    [0x5121, 0x8128, 0x812F, 0x9ABF, 0xE19F, 0xE000, 0xF000, 0xF175, 0xFFFF].map (decodeTableWord 16) =
      List.replicate 9 none := by decide

theorem test_decode_rejects_by_name :
    decodeWord 0x5121 = .error (.unknownOpcode 0x5121) ∧ decode [0x12] = .error .truncated ∧
    decode [0x12, 0x34, 0x56] = .ok (.jp 0x234, [0x56]) := ⟨rfl, rfl, rfl⟩

/-- The field extraction of spec/95_test_vectors.md section 2.7. -/
theorem test_fields :
    fieldOp 0xD12A = 0xD ∧ fieldX 0xD12A = 1 ∧ fieldY 0xD12A = 2 ∧ fieldN 0xD12A = 0xA ∧ fieldKK 0xD12A = 0x2A ∧
    fieldNNN 0xD12A = 0x12A := by decide

theorem test_encode_bytes : encodeBytes (.jp 0x234) = [0x12, 0x34] ∧ encodeBytes (.shl 1 2) = [0x81, 0x2E] := by decide

/-! ## Control flow -/

-- F1
theorem test_sys : after 0x0123 State.reset (fun t => (t.faultOut, t.pc)) = some (7, 0x200) := by decide
-- U12
theorem test_sys_ignores_policy :
    after 0x00FF { State.reset with unknownPolicy := .skip } (fun t => (t.faultOut, t.unknownOpcodePulses)) =
      some (7, 0) := by decide
-- F3
theorem test_ret :
    after 0x00EE { withSp 1 with stack := State.reset.stack.set 0 0x206 } (fun t => (t.sp, t.pc, t.stack[0])) =
      some (0, 0x206, 0x206) := by decide
-- F5, F4
theorem test_ret_ends :
    after 0x00EE { withSp 16 with stack := State.reset.stack.set 15 0xABC } (fun t => (t.sp, t.pc)) =
      some (15, 0xABC) ∧
    after 0x00EE (withSp 0) (fun t => (t.faultOut, t.sp, t.pc)) = some (3, 0, 0x200) := by decide
-- F6, F8
theorem test_jp :
    after 0x1204 State.reset State.pc = some 0x204 ∧
    after 0x1FFF State.reset (fun t => (t.pc, t.faultOut)) = some (0xFFF, 0) := by decide
-- F9
theorem test_call :
    after 0x2ABC State.reset (fun t => (t.stack[0], t.sp, t.pc)) = some (0x202, 1, 0xABC) := by decide
-- F10, F11
theorem test_call_ends :
    after 0x2ABC (withSp 15) (fun t => (t.stack[15], t.sp, t.pc)) = some (0x202, 16, 0xABC) ∧
    after 0x2ABC (withSp 16) (fun t => (t.faultOut, t.sp, t.pc)) = some (2, 16, 0x200) := by decide
-- F12, F13
theorem test_se_byte :
    after 0x332A (regs [(3, 0x2A)]) State.pc = some 0x204 ∧ after 0x332A (regs [(3, 0x2B)]) State.pc = some 0x202 := by
  decide
-- F14, F15
theorem test_sne_byte :
    after 0x432A (regs [(3, 0x2A)]) State.pc = some 0x202 ∧ after 0x432A (regs []) State.pc = some 0x204 := by decide
-- F16, F17, F18
theorem test_se_reg :
    after 0x5120 (regs [(1, 7), (2, 7)]) State.pc = some 0x204 ∧
    after 0x5120 (regs [(1, 7), (2, 8)]) State.pc = some 0x202 ∧
    after 0x5330 (regs [(3, 0x99)]) State.pc = some 0x204 := by decide
-- F19, F20, F21
theorem test_sne_reg :
    after 0x9120 (regs [(1, 7), (2, 8)]) State.pc = some 0x204 ∧
    after 0x9120 (regs [(1, 7), (2, 7)]) State.pc = some 0x202 ∧
    after 0x9330 (regs [(3, 0x99)]) State.pc = some 0x202 := by decide
-- F22, F24
theorem test_jp_v0 :
    after 0xB300 (regs [(0, 4)]) State.pc = some 0x304 ∧ after 0xB300 (regs [(3, 0x40)]) State.pc = some 0x300 := by decide
-- F23
theorem test_jp_v0_top : after 0xBFFF (regs [(0, 0xFF)]) (fun t => (t.pc, t.faultOut)) = some (0x10FE, 0) := by decide

/-! ## Register load, ALU, random -/

-- A1, A2
theorem test_ld_byte :
    after 0x6A7F State.reset (fun t => (t.getV 0xA, t.pc)) = some (0x7F, 0x202) ∧
    after 0x6F05 State.reset (fun t => t.getV 0xF) = some 5 := by decide
-- A4, A5
theorem test_add_byte :
    after 0x7001 (regs [(0, 0xFF), (0xF, 7)]) (fun t => (t.getV 0, t.getV 0xF)) = some (0, 7) ∧
    after 0x7F01 (regs [(0xF, 0xFF)]) (fun t => t.getV 0xF) = some 0 := by decide
-- A6
theorem test_ld_reg :
    after 0x8120 (regs [(1, 1), (2, 0xEE), (0xF, 1)]) (fun t => (t.getV 1, t.getV 0xF)) = some (0xEE, 1) := by decide
-- A7
theorem test_or :
    after 0x8121 (regs [(1, 0x0F), (2, 0xF0), (0xF, 1)]) (fun t => (t.getV 1, t.getV 0xF)) = some (0xFF, 1) := by decide
-- A8
theorem test_and :
    after 0x8122 (regs [(1, 0x3C), (2, 0x0F), (0xF, 1)]) (fun t => (t.getV 1, t.getV 0xF)) = some (0x0C, 1) := by decide
-- A9
theorem test_xor :
    after 0x8123 (regs [(1, 0xFF), (2, 0x0F), (0xF, 1)]) (fun t => (t.getV 1, t.getV 0xF)) = some (0xF0, 1) := by decide
-- A11, A12
theorem test_add_reg :
    after 0x8124 (regs [(1, 0xFF), (2, 0xFF)]) (fun t => (t.getV 1, t.getV 0xF)) = some (0xFE, 1) ∧
    after 0x8124 (regs [(1, 0x80), (2, 0x7F)]) (fun t => (t.getV 1, t.getV 0xF)) = some (0xFF, 0) := by decide
-- A14, A15
theorem test_add_reg_vf :
    after 0x8F14 (regs [(0xF, 0xF0), (1, 0x20)]) (fun t => t.getV 0xF) = some 1 ∧
    after 0x81F4 (regs [(0xF, 5), (1, 0x10)]) (fun t => (t.getV 1, t.getV 0xF)) = some (0x15, 0) := by decide
-- A16, A17
theorem test_sub :
    after 0x8125 (regs [(1, 5), (2, 7)]) (fun t => (t.getV 1, t.getV 0xF)) = some (0xFE, 0) ∧
    after 0x8125 (regs [(1, 7), (2, 7)]) (fun t => (t.getV 1, t.getV 0xF)) = some (0, 1) := by decide
-- A19
theorem test_sub_vf : after 0x8F25 (regs [(0xF, 9), (2, 3)]) (fun t => t.getV 0xF) = some 1 := by decide
-- A22
theorem test_shr :
    after 0x8126 (regs [(1, 4), (2, 0xFF)]) (fun t => (t.getV 1, t.getV 2, t.getV 0xF)) = some (2, 0xFF, 0) := by decide
-- A20, A23
theorem test_shr_flag :
    after 0x8106 (regs [(1, 5)]) (fun t => (t.getV 1, t.getV 0xF)) = some (2, 1) ∧
    after 0x8F06 (regs [(0xF, 3)]) (fun t => t.getV 0xF) = some 1 := by decide
-- A24, A25
theorem test_subn :
    after 0x8127 (regs [(1, 5), (2, 7)]) (fun t => (t.getV 1, t.getV 0xF)) = some (2, 1) ∧
    after 0x8127 (regs [(1, 7), (2, 5)]) (fun t => (t.getV 1, t.getV 0xF)) = some (0xFE, 0) := by decide
-- A26
theorem test_subn_equal :
    after 0x8127 (regs [(1, 7), (2, 7)]) (fun t => (t.getV 1, t.getV 0xF)) = some (0, 1) := by decide
-- A27, A28
theorem test_shl :
    after 0x810E (regs [(1, 0x81)]) (fun t => (t.getV 1, t.getV 0xF)) = some (2, 1) ∧
    after 0x810E (regs [(1, 0x7F)]) (fun t => (t.getV 1, t.getV 0xF)) = some (0xFE, 0) := by decide
-- A29
theorem test_shl_vf : after 0x8F0E (regs [(0xF, 0xC0)]) (fun t => t.getV 0xF) = some 1 := by decide
-- A30, A32: STEP(0xA7) on the word at `PC`
theorem test_rnd :
    afterEvent (.step 0xA7) (bytesAt 0x200 [0xC1, 0x0F] State.reset) (fun t => (t.getV 1, t.pc)) = some (0x07, 0x202) ∧
    afterEvent (.step 0xA7) (bytesAt 0x200 [0xC1, 0x00] (regs [(1, 0x55)])) (fun t => t.getV 1) = some 0 := by decide
-- R133: the port's value belongs to its own STEP
theorem test_rnd_port_spent :
    afterEvent (.step 0xA7) (bytesAt 0x200 [0xC1, 0x0F] State.reset) (fun t => (t.evRand, t.inbox)) =
      some (none, []) := by decide

/-! ## Index register and memory -/

-- M2
theorem test_ld_i : after 0xAFFF State.reset (fun t => (t.i, t.pc)) = some (0xFFF, 0x202) := by decide
-- M3, M4, M6, M7
theorem test_add_i :
    after 0xF21E { regs [(2, 0x20)] with i := 0xFF0 } (fun t => (t.i, t.getV 0xF)) = some (0x1010, 1) ∧
    after 0xF21E { regs [(2, 0)] with i := 0xFFF } (fun t => (t.i, t.getV 0xF)) = some (0xFFF, 0) ∧
    after 0xF21E { regs [(2, 0)] with i := 0x1000 } (fun t => (t.i, t.getV 0xF)) = some (0x1000, 1) ∧
    after 0xF21E { regs [(2, 1)] with i := 0xFFFF } (fun t => (t.i, t.getV 0xF)) = some (0, 1) := by decide
-- M8
theorem test_add_i_vf :
    after 0xFF1E { regs [(0xF, 2)] with i := 0xFFE } (fun t => (t.i, t.getV 0xF)) = some (0x1000, 1) := by decide
-- M10, M11
theorem test_ld_f :
    after 0xF429 (regs [(4, 0x0A)]) State.i = some 0x32 ∧ after 0xF429 (regs [(4, 0xFF)]) State.i = some 0x4FB := by
  decide
-- M12, M14
theorem test_ld_b :
    after 0xF033 { regs [(0, 0x9C)] with i := 0x300 } (fun t => (t.readBytes 0x300 3, t.i)) =
      some ([1, 5, 6], 0x300) ∧
    after 0xF033 { regs [(0, 0xFF)] with i := 0xFFD } (fun t => (t.readBytes 0xFFD 3, t.faultOut)) =
      some ([2, 5, 5], 0) := by decide
-- M15
theorem test_ld_b_out_of_range :
    after 0xF033 (bytesAt 0xFFE [8, 9] { regs [(0, 0xFF)] with i := 0xFFE })
      (fun t => (t.faultOut, t.pc, t.readBytes 0xFFE 2)) = some (4, 0x200, [8, 9]) := by decide
-- M16, M17
theorem test_ld_store :
    after 0xF155 (regs [(0, 0xAA), (1, 0xBB)]) (fun t => (t.readBytes 0 2, t.i)) = some ([0xAA, 0xBB], 2) ∧
    after 0xF155 { regs [(0xE, 0x11), (0xF, 0x22)] with i := 14 } (fun t => (t.readBytes 14 2, t.readByte 0, t.i)) =
      some ([0x11, 0x22], 0xF0, 16) := by decide
-- M18, M19
theorem test_ld_store_out_of_range :
    after 0xF255 (withI 14) (fun t => (t.faultOut, t.pc, t.i)) = some (5, 0x200, 14) ∧
    after 0xF055 (withI 0x300) (fun t => (t.faultOut, t.pc)) = some (5, 0x200) := by decide
-- M21
theorem test_ld_load :
    after 0xFF65 State.reset (fun t => (t.v.toList, t.i)) =
      some ([0xF0, 0x90, 0x90, 0x90, 0xF0, 0x20, 0x60, 0x20, 0x20, 0x70, 0xF0, 0x10, 0xF0, 0x80, 0xF0, 0xF0], 16) := by
  decide
-- M23, M22
theorem test_ld_load_literal :
    after 0xF165 (withI 3) (fun t => (t.getV 3, t.getV 4, t.getV 0, t.i)) = some (0x90, 0xF0, 0, 5) ∧
    after 0xFF65 (withI 1) (fun t => (t.faultOut, t.pc, t.getV 1)) = some (5, 0x200, 0) := by decide

/-! ## Display -/

-- D1
theorem test_cls :
    after 0x00E0 (pixelAt 3 5 (regs [(0xF, 1)])) (fun t => (t.disp.pixel 3 5, t.getV 0xF, t.dispChangedPulses)) =
      some (false, 1, 1) := by decide
-- D2 (the eight pixels and no other), D3
theorem test_drw_corner_and_collision :
    after 0xD121 (bytesAt 0x300 [0xFF] { regs [(1, 63), (2, 31)] with i := 0x300 })
      (fun t => (t.disp.pixel 31 63, t.disp.pixel 31 0, t.disp.pixel 31 6, pixelCount t, t.getV 0xF)) =
      some (true, true, true, 8, 0) ∧
    after 0xD121 (pixelAt 31 0 (bytesAt 0x300 [0xFF] { regs [(1, 63), (2, 31)] with i := 0x300 }))
      (fun t => (t.disp.pixel 31 0, t.disp.pixel 31 63, pixelCount t, t.getV 0xF)) = some (false, true, 7, 1) := by decide
-- D6, D8, D10, D5
theorem test_drw_length_range_old_vf_row_wrap :
    after 0xD120 { regs [(0xF, 9)] with i := 0xFFFF } (fun t => (t.faultOut, t.getV 0xF, t.dispChangedPulses, t.pc)) =
      some (0, 0, 1, 0x202) ∧
    after 0xD125 { regs [(0xF, 1)] with i := 0xFFC } (fun t => (t.faultOut, t.getV 0xF, t.pc)) =
      some (4, 1, 0x200) ∧
    after 0xDFF1 (bytesAt 0x300 [0x80] { regs [(0xF, 2)] with i := 0x300 })
      (fun t => (t.disp.pixel 2 2, pixelCount t, t.getV 0xF)) = some (true, 1, 0) ∧
    after 0xD122 (bytesAt 0x300 [0x80, 0x80] { regs [(2, 31)] with i := 0x300 })
      (fun t => (t.disp.pixel 31 0, t.disp.pixel 0 0, pixelCount t)) = some (true, true, 2) := by decide

/-! ## Timers and keys -/

-- K1
theorem test_ld_vx_dt :
    after 0xF607 { State.reset with dt := 4 } (fun t => (t.getV 6, t.dt, t.pc)) = some (4, 4, 0x202) := by decide
-- K2
theorem test_ld_dt_vx : after 0xF515 (regs [(5, 7)]) (fun t => (t.dt, t.pc)) = some (7, 0x202) := by decide
-- K3
theorem test_ld_st_vx : after 0xF518 (regs [(5, 0x1E)]) (fun t => (t.st, t.stOut)) = some (0x1E, 0x1E) := by decide
-- K4, K5
theorem test_skp :
    after 0xE29E ((regs [(2, 7)]).setKey 7 true) State.pc = some 0x204 ∧
    after 0xE29E ((regs [(2, 7)]).setKey 2 true) State.pc = some 0x202 := by decide
-- K6
theorem test_skp_out_of_range : after 0xE29E (regs [(2, 0x10)]) (fun t => (t.faultOut, t.pc)) = some (6, 0x200) := by decide
-- K7, K8
theorem test_sknp :
    after 0xE2A1 (regs [(2, 7)]) State.pc = some 0x204 ∧
    after 0xE2A1 ((regs [(2, 7)]).setKey 7 true) State.pc = some 0x202 := by decide
-- K9
theorem test_sknp_out_of_range : after 0xE2A1 (regs [(2, 0xFF)]) (fun t => (t.faultOut, t.pc)) = some (6, 0x200) := by decide
-- K10
theorem test_ld_vx_k :
    after 0xF50A (State.reset.setKey 3 true) (fun t => (t.haltedOut, t.pendingKeyRegister, t.pc, t.getV 5)) =
      some (true, 5, 0x202, 0) := by decide

/-! ## The cycle and the events -/

-- U1, U2
theorem test_unknown_word :
    after 0x5121 State.reset (fun t => (t.faultOut, t.pc, t.unknownOpcodePulses)) = some (1, 0x200, 1) ∧
    after 0x5121 { State.reset with unknownPolicy := .skip } (fun t => (t.faultOut, t.pc, t.unknownOpcodePulses)) =
      some (0, 0x202, 1) := by decide
-- the odd fetch of section 2.7
theorem test_odd_fetch : after 0x6005 (withPc 0x203) (fun t => (t.getV 0, t.pc)) = some (5, 0x205) := by decide
-- the second step of F8 and of F23
theorem test_fetch_out_of_range :
    afterEvent (.step 0) (withPc 0xFFF) (fun t => (t.faultOut, t.pc)) = some (4, 0xFFF) ∧
    afterEvent (.step 0) (withPc 0x10FE) (fun t => (t.faultOut, t.pc)) = some (4, 0x10FE) := by decide
-- E10, E11
theorem test_gates :
    afterEvent (.step 0) (bytesAt 0x200 [0x63, 0x2A] (waiting 5)) (fun t => (t.pc, t.getV 3)) = some (0x200, 0) ∧
    afterEvent (.step 0) { bytesAt 0x200 [0x63, 0x2A] State.reset with faultCause := .unknownOpcode }
      (fun t => (t.pc, t.getV 3)) = some (0x200, 0) := by decide
-- E2, E3, E1
theorem test_tick :
    afterEvent .tick { State.reset with dt := 0xFF } (fun t => (t.dt, t.st)) = some (0xFE, 0) ∧
    afterEvent .tick { State.reset with dt := 1, st := 1 } (fun t => (t.dt, t.st)) = some (0, 0) := by decide
-- E4, E5
theorem test_tick_gated :
    afterEvent .tick { waiting 0 with dt := 5 } (fun t => (t.dt, t.haltedForKey)) = some (4, true) ∧
    afterEvent .tick { State.reset with st := 5, faultCause := .stackUnderflow } (fun t => (t.st, t.faultOut)) =
      some (4, 3) := by decide
-- E6, E7, E9
theorem test_key_press :
    afterEvent (.keyPress 9) State.reset (fun t => (t.keyDown 9, t.getV 0)) = some (true, 0) ∧
    afterEvent (.keyPress 9) ((waiting 0xF).setKey 9 true) (fun t => (t.getV 0xF, t.haltedForKey, t.keyDown 9)) =
      some (9, false, true) ∧
    afterEvent (.keyPress 0) ((waiting 3).setV 3 0x55) (fun t => (t.getV 3, t.keyDown 0, t.haltedForKey)) =
      some (0, true, false) := by decide
-- E8
theorem test_key_release :
    afterEvent (.keyRelease 9) ((waiting 3).setKey 9 true) (fun t => (t.keyDown 9, t.haltedForKey, t.getV 3)) =
      some (false, true, 0) := by decide
-- E12, with a program of two bytes (R202)
theorem test_reset_event :
    afterEvent (.reset (programImage [0x12, 0x00]))
      { pixelAt 1 1 (bytesAt 0 [7] (waiting 2)) with faultCause := .stackOverflow, sp := 16, pc := 0x345 }
      (fun t => ((t.faultOut, t.sp, t.pc), (t.haltedForKey, pixelCount t, t.readByte 0, t.fetch))) =
      some ((0, 0, 0x200), (false, 0, 0xF0, some 0x1200)) := by decide
-- U9 of spec/93_implementation_defined.md: the last address is in range, the next one and the font are not
theorem test_reset_image_range :
    step { State.reset with inbox := [.reset [(0x04F, 1)]] } = .refused .imageOutsideMemory ∧
    step { State.reset with inbox := [.reset [(0x1000, 1)]] } = .refused .imageOutsideMemory ∧
    afterEvent (.reset [(0x050, 1), (0xFFF, 2)]) State.reset (fun t => (t.readByte 0x050, t.readByte 0xFFF)) =
      some (1, 2) := ⟨rfl, rfl, by decide⟩
-- R42: glyph 8 and glyph F
theorem test_font :
    State.reset.readBytes 0x28 5 = [0xF0, 0x90, 0xF0, 0x90, 0xF0] ∧
    State.reset.readBytes 0x4B 5 = [0xF0, 0x80, 0xF0, 0x80, 0x80] := by decide
-- writing the font byte back takes the entry away again
theorem test_memory_canonical :
    Memory.wf State.reset.mem ∧ (bytesAt 0 [0xF0] (bytesAt 0 [7] State.reset)).mem = [] ∧
    (bytesAt 0x300 [2] (bytesAt 0x301 [1] State.reset)).mem = [(0x300, 2), (0x301, 1)] := by decide

/-! ## Witnesses: the hypotheses of each statement, met by concrete states and operands -/

/-- A well-formed instruction, with every operand bit set, and one of the boundary of the one check. -/
theorem witness_DecodeOfEncode : (Instr.drw 0xF 0xF 0xF).wellFormed = true ∧ (Instr.sys 0x0E1).wellFormed = true := by decide

theorem witness_EncodeOfDecode : decodeWord 0x8AB4 = .ok (.addReg 0xA 0xB) ∧ decodeWord 0x0000 = .ok (.sys 0) := ⟨rfl, rfl⟩

/-- Both sides of each of the two equivalences occur. -/
theorem witness_ClassifyByMaskAndTemplate :
    classify 0xFFFF = none ∧ classify 0x00E0 = some .cls ∧ classify 0x00E1 = some (.sys 0x0E1) := by decide

/-- The highest address a fetch is in range at, and an odd one. -/
theorem witness_FetchIsBigEndian : (withPc 0xFFE).pc.toNat + 2 ≤ 4096 ∧ (withPc 0x203).pc.toNat + 2 ≤ 4096 := by decide

theorem witness_StepRunsDecodedInstruction :
    let s := bytesAt 0xFFE [0x6A, 0x7F] (withPc 0xFFE)
    s.inbox = [] ∧ s.faultCause = .noFault ∧ s.haltedForKey = false ∧ s.pc.toNat + 2 ≤ 4096 ∧
      decode [s.readByte s.pc.toNat, s.readByte (s.pc.toNat + 1)] = .ok (.ldByte 0xA 0x7F, []) :=
  ⟨rfl, rfl, rfl, by decide, rfl⟩

/-- The gate closed by a fault, and the gate closed by a key wait. -/
theorem witness_StepCycle_gated :
    ({ State.reset with faultCause := .unsupportedSys }).faultCause ≠ .noFault ∧ (waiting 3).haltedForKey = true := by decide

/-- The gates open: the first `PC` whose fetch is out of range, and the last `PC` of all. -/
theorem witness_StepCycle_out_of_range :
    (withPc 0xFFF).faultCause = .noFault ∧ (withPc 0xFFF).haltedForKey = false ∧ 4096 < (withPc 0xFFF).pc.toNat + 2 ∧
      4096 < (withPc 0xFFFF).pc.toNat + 2 := by decide

/-- The gates open and a word of no kind, under HALT and under SKIP, and a word of a kind, at the last `PC` in range. -/
theorem witness_StepCycle_words :
    let u := bytesAt 0xFFE [0x51, 0x21] (withPc 0xFFE)
    let k := bytesAt 0xFFE [0x12, 0x34] (withPc 0xFFE)
    u.faultCause = .noFault ∧ u.haltedForKey = false ∧ u.fetch = some 0x5121 ∧ classify 0x5121 = none ∧
      u.unknownPolicy = .halt ∧ ({ u with unknownPolicy := .skip }).unknownPolicy = .skip ∧
      k.fetch = some 0x1234 ∧ classify 0x1234 = some (.jp 0x234) := by decide

theorem witness_PlacedWordRuns :
    decodeTableWord 16 0xF155 = some (.ldStore 1) ∧ (withPc 0xFFE).pc.toNat + 2 ≤ 4096 := by decide

/-- An instruction that faults, one of each kind of `PC` rule that completes, a gated cycle and one that faults. -/
theorem witness_ProgramCounterRule :
    (∃ t, exec .ret State.reset = .next t ∧ t.faultCause ≠ .noFault) ∧
    (∃ t, exec .cls State.reset = .next t ∧ t.faultCause = .noFault ∧ pcRule .cls = .sequential) ∧
    (∃ t, exec (.skp 0) State.reset = .next t ∧ t.faultCause = .noFault ∧ pcRule (.skp 0) = .conditional) ∧
    (∃ t, cycle (waiting 1) = .next t ∧ (waiting 1).haltedForKey = true) ∧
    (∃ t, cycle (withPc 0xFFF) = .next t ∧ t.faultCause ≠ .noFault) :=
  ⟨⟨_, rfl, by decide⟩, ⟨_, rfl, rfl, rfl⟩, ⟨_, rfl, rfl, rfl⟩, ⟨_, rfl, rfl⟩, ⟨_, rfl, by decide⟩⟩

theorem witness_KeyPressEvent : State.reset.haltedForKey = false ∧ (waiting 0xF).haltedForKey = true := by decide

/-- The first and the last address without a stated byte. -/
theorem witness_ResetValues : 0x050 ≤ 0x050 ∧ 0x050 ≤ 0xFFF ∧ Memory.byte? State.reset.mem 0xFFF = none := by decide

/-- The longest program and the empty one, an image with both ends of `MEM_INIT`'s range and an address named twice, the last pair
of that address, and the bounds of the memory clauses. -/
theorem witness_ResetEvent :
    (List.replicate 3584 (0 : Byte)).length ≤ 3584 ∧ ([] : List Byte).length ≤ 3584 ∧
    (3583 < (List.replicate 3584 (0 : Byte)).length) ∧ 0x050 ≤ 0x1FF ∧ 0x1FF < 0x200 ∧
    0x200 + (List.replicate 3584 (0 : Byte)).length ≤ 0x1000 ∧
    (let image : List Host.Cell := [(0x050, 1), (0x100, 2), (0x100, 3), (0xFFF, 4)]
     (∀ c ∈ image, 0x050 ≤ c.1 ∧ c.1 < 4096) ∧
      image = [(0x050, 1), (0x100, 2)] ++ (0x100, 3) :: [(0xFFF, 4)] ∧ (∀ c ∈ [((0xFFF : Nat), (4 : Byte))], c.1 ≠ 0x100) ∧
      ∀ c ∈ image, c.1 ≠ 0x051) := by
  rw [List.length_replicate]
  decide

theorem witness_StepPerformsOldestEvent :
    State.reset.inbox = [] ∧
    (∀ e, ({ State.reset with inbox := [e, Event.tick] }).inbox = e :: [Event.tick]) ∧
    ∃ t, cycle { bytesAt 0x200 [0xC1, 0x0F] State.reset with inbox := [Event.tick], evRand := some 0xA7 } = .next t :=
  ⟨rfl, fun _ => rfl, _, rfl⟩

theorem witness_SysFaults : (0x0E1 : Addr) ≠ 0x0E0 ∧ (0x0E1 : Addr) ≠ 0x0EE ∧ (0x0DF : Addr) ≠ 0x0E0 := by decide

/-- Both ends of the completing clause, and the faulting one. -/
theorem witness_RetPops : 0 < (withSp 1).sp.val ∧ 0 < (withSp 16).sp.val ∧ (withSp 0).sp.val = 0 := by decide

theorem witness_CallPushes : (withSp 0).sp.val < 16 ∧ (withSp 15).sp.val < 16 ∧ (withSp 16).sp.val = 16 := by decide

theorem witness_SkipsOnByte : (regs [(3, 0x2A)]).getV 3 = 0x2A ∧ (regs [(3, 0x2B)]).getV 3 ≠ 0x2A := by decide

theorem witness_SkipsOnRegisters :
    (regs [(1, 7), (2, 7)]).getV 1 = (regs [(1, 7), (2, 7)]).getV 2 ∧
    (regs [(1, 7), (2, 8)]).getV 1 ≠ (regs [(1, 7), (2, 8)]).getV 2 ∧ (0xF : Nibble) = 0xF := by decide

/-- The result clause of AddAndSubtract, SubtractReversed and Shifts. -/
theorem witness_AddAndSubtract_SubtractReversed_Shifts : (0xE : Nibble) ≠ 0xF := by decide

theorem witness_RandomAndMask : ({ State.reset with evRand := some 0xA7 }).evRand = some 0xA7 := rfl

theorem witness_RandomIsFree : State.reset.evRand = none ∧ (0x0F : Byte).getLsbD 7 = false := by decide

/-- Both sides of the bound. -/
theorem witness_DecimalStore :
    (withI 0xFFD).i.toNat + 3 ≤ 4096 ∧ 4096 < (withI 0xFFE).i.toNat + 3 ∧ 4096 < (withI 0xFFFF).i.toNat + 3 := by decide

/-- Both sides of the bound, at the largest and the smallest `x`, and registers at both ends of a copy. -/
theorem witness_BlockStore :
    (withI 0).i.toNat + (0xF : Nibble).toNat ≤ 15 ∧ (withI 15).i.toNat + (0 : Nibble).toNat ≤ 15 ∧
    15 < (withI 1).i.toNat + (0xF : Nibble).toNat ∧ 15 < (withI 16).i.toNat + (0 : Nibble).toNat ∧
    (withI 14).i.toNat ≤ (0xE : Nibble).toNat ∧ (0xF : Nibble).toNat ≤ (withI 14).i.toNat + (1 : Nibble).toNat := by decide

theorem witness_BlockLoad :
    (withI 0).i.toNat + (0xF : Nibble).toNat ≤ 15 ∧ (withI 15).i.toNat + (0 : Nibble).toNat ≤ 15 ∧
    15 < (withI 1).i.toNat + (0xF : Nibble).toNat ∧ 15 < (withI 16).i.toNat + (0 : Nibble).toNat ∧
    (withI 14).i.toNat ≤ (0xE : Nibble).toNat ∧ (0xF : Nibble).toNat ≤ (withI 14).i.toNat + (1 : Nibble).toNat := by decide

/-- Both sides of the bound, and no byte beyond the end of memory. -/
theorem witness_StoreThenRead :
    (([1, 2] : List Byte) = [] ∨ 0xFFE + ([1, 2] : List Byte).length ≤ 4096) ∧
    (([] : List Byte) = [] ∨ 4097 + ([] : List Byte).length ≤ 4096) ∧
    ([1, 2] : List Byte) ≠ [] ∧ 4096 < 0xFFF + ([1, 2] : List Byte).length := by decide

theorem witness_StoreSeenByNextFetch :
    let s := { withPc 0xFFB with i := 0xFFD }
    s.i = s.pc + 2 ∧ s.pc.toNat + 5 ≤ 4096 := by decide

/-- The completing clause with no byte and `I` out of range, and at the end of memory; the faulting one just above. -/
theorem witness_DrwDraws_range :
    ((0 : Nibble) = 0 ∨ (withI 0xFFFF).i.toNat + (0 : Nibble).toNat ≤ 4096) ∧
    ((0xF : Nibble) = 0 ∨ (withI 0xFF1).i.toNat + (0xF : Nibble).toNat ≤ 4096) ∧
    ((0xF : Nibble) ≠ 0 ∧ 4096 < (withI 0xFF2).i.toNat + (0xF : Nibble).toNat) := by decide

/-- A covered pixel that is set (collision), and a sprite that covers no set pixel (none): the font's byte F0 at (0, 0). -/
theorem witness_DrwDraws_collision :
    (∃ row col, SpriteCovers (fun k => (pixelAt 0 0 State.reset).readByte (0 + k)) 1 0 0 row col ∧
      (pixelAt 0 0 State.reset).disp.pixel row col = true) ∧
    ¬ ∃ row col, SpriteCovers (fun k => State.reset.readByte (0 + k)) 1 0 0 row col ∧
      State.reset.disp.pixel row col = true := by
  refine ⟨⟨0, 0, ⟨0, 0, by decide, by decide, by decide, rfl, rfl⟩, by decide⟩, ?_⟩
  rintro ⟨row, col, -, h⟩
  rw [show State.reset.disp = Grid.clear from rfl, pixel_clear] at h
  cases h

/-- The longest sprite the statements allow, and the empty one. -/
theorem witness_DrawFlipsCoveredPixels :
    (List.replicate 32 (0xFF : Byte)).length ≤ 32 ∧ ([] : List Byte).length ≤ 32 := by decide

theorem witness_CollisionIsSetToUnset :
    (List.replicate 32 (0xFF : Byte)).length ≤ 32 ∧ ([] : List Byte).length ≤ 32 := by decide

/-- A full sprite into an empty picture. -/
theorem witness_DrawTwiceRestores :
    (List.replicate 32 (0xFF : Byte)).length ≤ 32 ∧
    ∀ row col, SpriteCovers (fun k => (List.replicate 32 (0xFF : Byte)).getD k 0) 32 60 30 row col →
      Grid.clear.pixel row col = false :=
  ⟨by decide, fun row col _ => pixel_clear row col⟩

/-- The last key and the first value that is none, each with the key down and up. -/
theorem witness_KeySkips :
    ((regs [(2, 15)]).getV 2).toNat = (0xF : Nibble).toNat ∧ ((regs [(2, 15)]).setKey 15 true).keyDown 15 = true ∧
    (regs [(2, 15)]).keyDown 15 = false ∧ 15 < ((regs [(2, 16)]).getV 2).toNat := by decide

/-- A fault raised by an instruction, and the one that also pulses. -/
theorem witness_FaultsArePrecise :
    (∃ t, cycle (bytesAt 0x200 [0x00, 0xEE] State.reset) = .next t ∧ t.faultCause = .stackUnderflow) ∧
    (∃ t, cycle (bytesAt 0x200 [0x51, 0x21] State.reset) = .next t ∧ t.faultCause = .unknownOpcode) :=
  ⟨⟨_, rfl, rfl⟩, ⟨_, rfl, rfl⟩⟩

theorem witness_FirstFaultStays :
    let s := { State.reset with faultCause := Cause.stackOverflow }
    s.faultCause ≠ .noFault ∧ (∃ t, perform (.step 0) s = .next t) ∧ (∃ t, perform (.reset []) s = .next t) :=
  ⟨by decide, ⟨_, rfl⟩, ⟨_, rfl⟩⟩

/-- The bound is met at the two highest values it allows, and a step answers there. -/
theorem witness_PcBoundKept :
    let s := { withPc 0x10FE with sp := 1, stack := State.reset.stack.set 0 0x1000 }
    PcBounded s ∧ ∃ t, step s = .next t :=
  ⟨⟨by decide, by decide⟩, _, rfl⟩

/-- A memory that lists something, at a state whose step stores. -/
theorem witness_MemCanonicalKept :
    let s := { bytesAt 0x200 [0xF0, 0x33] State.reset with i := 0x300 }
    MemCanonical s ∧ ∃ t, step s = .next t :=
  ⟨show Memory.wf _ by decide, _, rfl⟩

/-- Each "changes only under" clause has a state in which that piece does change. -/
theorem witness_StateWrittenBy :
    (∃ t, exec (.ldLoad 0) (withI 3) = .next t ∧ t.getV 3 ≠ (withI 3).getV 3) ∧
    (∃ t, exec (.addByte 2 1) State.reset = .next t ∧ t.getV 2 ≠ State.reset.getV 2 ∧ t.pc ≠ State.reset.pc) ∧
    (∃ t, exec (.sub 1 2) State.reset = .next t ∧ t.getV 0xF ≠ State.reset.getV 0xF) ∧
    (∃ t, exec .ret State.reset = .next t ∧ t.faultCause ≠ State.reset.faultCause) ∧
    (∃ t, exec (.rnd 1 2) State.reset = .next t ∧ t.randIndex ≠ State.reset.randIndex) ∧
    (∃ t, exec (.ldB 0) (withI 0) = .next t ∧ t.readByte 0 ≠ (withI 0).readByte 0) ∧
    (∃ t, exec (.call 0) State.reset = .next t ∧ t.stack ≠ State.reset.stack ∧ t.sp ≠ State.reset.sp) ∧
    (∃ t, exec (.ldI 1) State.reset = .next t ∧ t.i ≠ State.reset.i) ∧
    (∃ t, exec (.ldDTVx 1) (regs [(1, 1)]) = .next t ∧ t.dt ≠ (regs [(1, 1)]).dt) ∧
    (∃ t, exec (.ldSTVx 1) (regs [(1, 1)]) = .next t ∧ t.st ≠ (regs [(1, 1)]).st) ∧
    (∃ t, exec (.ldVxK 1) State.reset = .next t ∧ t.haltedForKey ≠ State.reset.haltedForKey ∧
      t.pendingKeyRegister ≠ State.reset.pendingKeyRegister) ∧
    (∃ t, exec .cls (pixelAt 0 0 State.reset) = .next t ∧ t.disp ≠ (pixelAt 0 0 State.reset).disp) :=
  ⟨⟨_, rfl, by decide⟩, ⟨_, rfl, by decide, by decide⟩, ⟨_, rfl, by decide⟩, ⟨_, rfl, by decide⟩, ⟨_, rfl, by decide⟩,
    ⟨_, rfl, by decide⟩, ⟨_, rfl, by decide, by decide⟩, ⟨_, rfl, by decide⟩, ⟨_, rfl, by decide⟩, ⟨_, rfl, by decide⟩,
    ⟨_, rfl, by decide, by decide⟩, ⟨_, rfl, by decide⟩⟩

theorem witness_VfWrittenBy :
    (∃ t, exec (.addReg 1 2) State.reset = .next t ∧ writesFlag (.addReg 1 2) = true ∧
      State.reset.faultCause = .noFault ∧ t.faultCause = .noFault) ∧
    (∃ t, exec (.ldByte 0xF 5) State.reset = .next t ∧ writesFlag (.ldByte 0xF 5) = false ∧
      t.getV 0xF ≠ State.reset.getV 0xF) ∧
    (∃ t, exec (.ldLoad 0) { withI 15 with mem := [] } = .next t ∧ t.getV 0xF ≠ (withI 15).getV 0xF) :=
  ⟨⟨_, rfl, rfl, rfl, rfl⟩, ⟨_, rfl, rfl, by decide⟩, ⟨_, rfl, by decide⟩⟩

/-- An instruction that is not LD ST, and LD ST itself, with a state whose `ST` the other value differs from. -/
theorem witness_SoundTimerNeverRead :
    (∀ x, Instr.ldDTVx 5 ≠ .ldSTVx x) ∧ (∃ x, Instr.ldSTVx 5 = .ldSTVx x) ∧ (7 : Byte) ≠ State.reset.st := by
  exact ⟨by decide, ⟨5, rfl⟩, by decide⟩

/-- The lowest free slot of an empty stack and the only one of a stack of 15: the two where CALL overwrites it. -/
theorem witness_FreeSlotsUnobservable : (withSp 0).sp.val ≤ (0 : Fin 16).val ∧ (withSp 15).sp.val ≤ (15 : Fin 16).val := by decide

/-- F7: the self-jump at 0x200. -/
theorem witness_EndedStateStays : (bytesAt 0x200 [0x12, 0x00] State.reset).ended :=
  ⟨rfl, rfl, 0x1200, 0x200, by decide, rfl, by decide⟩

end Sys2Proof.Tests
end

section
/-! SUPPORT. The state as a whole: what an instruction writes, what it does not read, the bound on `PC`, and reset. The first
part rests on one case split over the 35 instructions, `exec_effect`: an instruction faults with a cause of its own, or completes
within R10's column "written by" and leaves `PC` by the rule of its kind (R72). What is not read rests on another,
`exec_mapHidden`. -/

namespace Sys2Proof.Machine

/-! ## What an instruction may write -/

/-- R10's column "written by", part by part, for an instruction that completes. A block load that completes stays inside the
register file. -/
def WrittenBy (p : Part) (i : Instr) (s : State) : Prop :=
  match p with
  | .reg r =>
    destination i = some r ∨ (writesFlag i = true ∧ r = 0xF) ∨
      ∃ x : Nibble, i = .ldLoad x ∧ s.i.toNat + x.toNat ≤ 15 ∧ s.i.toNat ≤ r.toNat ∧ r.toNat ≤ s.i.toNat + x.toNat
  | .i => (∃ nnn, i = .ldI nnn) ∨ ∃ x, i = .addI x ∨ i = .ldF x ∨ i = .ldStore x ∨ i = .ldLoad x
  | .pc => True
  | .sp => i = .ret ∨ ∃ nnn, i = .call nnn
  | .slot _ => ∃ nnn, i = .call nnn
  | .dt => ∃ x, i = .ldDTVx x
  | .st => ∃ x, i = .ldSTVx x
  | .halted => ∃ x, i = .ldVxK x
  | .pending => ∃ x, i = .ldVxK x
  | .pixel _ _ => i = .cls ∨ ∃ x y n, i = .drw x y n
  | .dispPulses => i = .cls ∨ ∃ x y n, i = .drw x y n
  | .mem _ => ∃ x, i = .ldB x ∨ i = .ldStore x
  | .evRand => ∃ x kk, i = .rnd x kk
  | .randIndex => ∃ x kk, i = .rnd x kk
  | .key _ => False
  | .fault => False
  | .policy => False
  | .inbox => False
  | .launch => False
  | .unknownPulses => False

/-- `PC` from one state to the next under each rule of R72; a target is the instruction's own. -/
def PcRule.Follows (rule : PcRule) (s t : State) : Prop :=
  match rule with
  | .sequential => t.pc = s.pc + 2
  | .conditional => t.pc = s.pc + 2 ∨ t.pc = s.pc + 4
  | .target => True

/-- `t` is what `i` can leave when it completes from `s`: only the parts written by `i` differ, and `PC` follows its rule. -/
structure Completes (i : Instr) (s t : State) : Prop where
  frame : OnlyChanges (WrittenBy · i s) s t
  pc : (pcRule i).Follows s t

section

variable {i : Instr} {s t : State}

/-- The end `next` after an update that leaves `PC` alone. -/
theorem Completes.advance {c : Part → Prop} (hi : pcRule i = .sequential) (hf : OnlyChanges c s t)
    (hc : ∀ p, c p → WrittenBy p i s) (hpc : t.pc = s.pc) : Completes i s t.advance where
  frame := (hf.trans (advance_frame t)).mono fun p hp => hp.elim (hc p) fun h => h ▸ trivial
  pc := by simp [hi, PcRule.Follows, hpc]

theorem Completes.setV (hi : pcRule i = .sequential) {x : Nibble} (hx : destination i = some x) (b : Byte) :
    Completes i s (s.setV x b).advance :=
  .advance hi (setV_frame s x b) (by rintro p rfl; exact .inl hx) rfl

theorem Completes.setResultAndFlag (hi : pcRule i = .sequential) {x : Nibble} (hx : destination i = some x)
    (hw : writesFlag i = true) (b f : Byte) : Completes i s (s.setResultAndFlag x b f).advance := by
  refine .advance hi (setResultAndFlag_frame s x b f) ?_ rfl
  rintro p (rfl | rfl)
  · exact .inl hx
  · exact .inr (.inl ⟨hw, rfl⟩)

theorem Completes.setI (hi : pcRule i = .sequential) (hw : WrittenBy .i i s) (w : Word) :
    Completes i s (s.setI w).advance :=
  .advance hi (setI_frame s w) (by rintro p rfl; exact hw) rfl

theorem Completes.skipIf (hi : pcRule i = .conditional) (c : Bool) : Completes i s (s.skipIf c) where
  frame := (skipIf_frame s c).mono (by rintro p rfl; trivial)
  pc := by
    rw [hi, PcRule.Follows, skipIf_pc]
    cases c
    · exact .inl rfl
    · exact .inr rfl

theorem Completes.setPc (hi : pcRule i = .target) {c : Part → Prop} (hf : OnlyChanges c s t)
    (hc : ∀ p, c p → WrittenBy p i s) (w : Word) : Completes i s (t.setPc w) where
  frame := (hf.trans (setPc_frame t w)).mono fun p hp => hp.elim (hc p) fun h => h ▸ trivial
  pc := by simp [hi, PcRule.Follows]

/-- An instruction that completes leaves the latch as it was. -/
theorem Completes.faultCause (h : Completes i s t) : t.faultCause = s.faultCause := h.frame .fault id

end

/-- The frame of a push: one slot and `SP`. -/
theorem push?_frame {s t : State} {w : Word} (h : s.push? w = some t) :
    OnlyChanges (fun p => p = .sp ∨ ∃ k, p = .slot k) s t := by
  obtain ⟨-, hn⟩ | ⟨_, _, ht, rfl⟩ := push?_cases s w
  · rw [hn] at h; cases h
  rw [ht] at h
  cases h
  intro p hp
  cases p with
  | sp => exact absurd (.inl rfl) hp
  | slot k => exact absurd (.inr ⟨k, rfl⟩) hp
  | _ => rfl

/-- The frame of a pop: `SP` (R101: the slot keeps its contents). -/
theorem pop?_frame {s t : State} {w : Word} (h : s.pop? = some (w, t)) : OnlyChanges (· = .sp) s t := by
  obtain ⟨-, hn⟩ | ⟨_, _, _, ht⟩ := pop?_cases s
  · rw [hn] at h; cases h
  rw [ht] at h
  cases h
  intro p hp
  cases p with
  | sp => exact absurd rfl hp
  | _ => rfl

theorem setDt_frame (s : State) (b : Byte) : OnlyChanges (· = .dt) s { s with dt := b } := by
  intro p hp
  cases p with
  | dt => exact absurd rfl hp
  | _ => rfl

theorem setSt_frame (s : State) (b : Byte) : OnlyChanges (· = .st) s { s with st := b } := by
  intro p hp
  cases p with
  | st => exact absurd rfl hp
  | _ => rfl

@[simp] theorem useRandom_pc (s : State) : s.useRandom.pc = s.pc := by
  unfold State.useRandom
  split <;> rfl

/-- Everything an instruction can do: fault with a cause of its own (R170, R171), or complete. -/
theorem exec_effect (i : Instr) (s : State) :
    (∃ c, RaisedBy c i ∧ exec i s = raise c s) ∨ ∃ t, exec i s = .next t ∧ Completes i s t := by
  cases i with
  | sys nnn => exact .inl ⟨.unsupportedSys, ⟨nnn, rfl⟩, rfl⟩
  | cls =>
    refine .inr ⟨_, rfl, .advance rfl (show_frame s _) ?_ rfl⟩
    rintro p (⟨_, _, rfl⟩ | rfl) <;> exact .inl rfl
  | ret =>
    cases h : s.pop? with
    | none => exact .inl ⟨.stackUnderflow, rfl, by simp only [exec, execRet, h]⟩
    | some popped =>
      simp only [exec, execRet, h]
      refine .inr ⟨_, rfl, .setPc rfl (pop?_frame h) ?_ _⟩
      rintro p rfl
      exact .inl rfl
  | call nnn =>
    cases h : s.push? (s.pc + 2) with
    | none => exact .inl ⟨.stackOverflow, ⟨nnn, rfl⟩, by simp only [exec, execCall, h]⟩
    | some pushed =>
      simp only [exec, execCall, h]
      refine .inr ⟨_, rfl, .setPc rfl (push?_frame h) ?_ _⟩
      rintro p (rfl | ⟨k, rfl⟩)
      · exact .inr ⟨nnn, rfl⟩
      · exact ⟨nnn, rfl⟩
  | jp nnn => exact .inr ⟨_, rfl, .setPc rfl (.refl (fun _ => False) s) (fun _ => False.elim) _⟩
  | jpV0 nnn => exact .inr ⟨_, rfl, .setPc rfl (.refl (fun _ => False) s) (fun _ => False.elim) _⟩
  | seByte x kk => exact .inr ⟨_, rfl, .skipIf rfl _⟩
  | sneByte x kk => exact .inr ⟨_, rfl, .skipIf rfl _⟩
  | seReg x y => exact .inr ⟨_, rfl, .skipIf rfl _⟩
  | sneReg x y => exact .inr ⟨_, rfl, .skipIf rfl _⟩
  | skp x =>
    cases h : s.keyOperand x with
    | none => exact .inl ⟨.keyIndexOutOfRange, ⟨x, .inl rfl⟩, by simp only [exec, execSkp, h]⟩
    | some k =>
      simp only [exec, execSkp, h]
      exact .inr ⟨_, rfl, .skipIf rfl _⟩
  | sknp x =>
    cases h : s.keyOperand x with
    | none => exact .inl ⟨.keyIndexOutOfRange, ⟨x, .inr rfl⟩, by simp only [exec, execSknp, h]⟩
    | some k =>
      simp only [exec, execSknp, h]
      exact .inr ⟨_, rfl, .skipIf rfl _⟩
  | ldByte x kk => exact .inr ⟨_, rfl, .setV rfl rfl _⟩
  | addByte x kk => exact .inr ⟨_, rfl, .setV rfl rfl _⟩
  | ldReg x y => exact .inr ⟨_, rfl, .setV rfl rfl _⟩
  | orReg x y => exact .inr ⟨_, rfl, .setV rfl rfl _⟩
  | andReg x y => exact .inr ⟨_, rfl, .setV rfl rfl _⟩
  | xorReg x y => exact .inr ⟨_, rfl, .setV rfl rfl _⟩
  | ldVxDT x => exact .inr ⟨_, rfl, .setV rfl rfl _⟩
  | addReg x y => exact .inr ⟨_, rfl, .setResultAndFlag rfl rfl rfl _ _⟩
  | sub x y => exact .inr ⟨_, rfl, .setResultAndFlag rfl rfl rfl _ _⟩
  | shr x y => exact .inr ⟨_, rfl, .setResultAndFlag rfl rfl rfl _ _⟩
  | subn x y => exact .inr ⟨_, rfl, .setResultAndFlag rfl rfl rfl _ _⟩
  | shl x y => exact .inr ⟨_, rfl, .setResultAndFlag rfl rfl rfl _ _⟩
  | rnd x kk =>
    refine .inr ⟨_, rfl, .advance rfl ((useRandom_frame s).trans (setV_frame _ x _)) ?_ (useRandom_pc s)⟩
    rintro p ((rfl | rfl) | rfl)
    · exact ⟨x, kk, rfl⟩
    · exact ⟨x, kk, rfl⟩
    · exact .inl rfl
  | drw x y n =>
    cases h : s.spriteOperand n with
    | none => exact .inl ⟨.memoryAddressOutOfRange, .inl ⟨x, y, n, rfl⟩, by simp only [exec, execDrw, h]⟩
    | some bytes =>
      simp only [exec, execDrw, h]
      refine .inr ⟨_, rfl, .advance rfl ((show_frame s _).trans (setV_frame _ 0xF _)) ?_ rfl⟩
      rintro p ((⟨_, _, rfl⟩ | rfl) | rfl)
      · exact .inr ⟨x, y, n, rfl⟩
      · exact .inr ⟨x, y, n, rfl⟩
      · exact .inr (.inl ⟨rfl, rfl⟩)
  | ldDTVx x => exact .inr ⟨_, rfl, .advance rfl (setDt_frame s _) (by rintro p rfl; exact ⟨x, rfl⟩) rfl⟩
  | ldSTVx x => exact .inr ⟨_, rfl, .advance rfl (setSt_frame s _) (by rintro p rfl; exact ⟨x, rfl⟩) rfl⟩
  | ldVxK x =>
    refine .inr ⟨_, rfl, .advance rfl (waitForKey_frame s x) ?_ rfl⟩
    rintro p (rfl | rfl) <;> exact ⟨x, rfl⟩
  | ldI nnn => exact .inr ⟨_, rfl, .setI rfl (.inl ⟨nnn, rfl⟩) _⟩
  | ldF x => exact .inr ⟨_, rfl, .setI rfl (.inr ⟨x, .inr (.inl rfl)⟩) _⟩
  | addI x =>
    refine .inr ⟨_, rfl, .advance rfl ((setI_frame s _).trans (setV_frame _ 0xF _)) ?_ rfl⟩
    rintro p (rfl | rfl)
    · exact .inr ⟨x, .inl rfl⟩
    · exact .inr (.inl ⟨rfl, rfl⟩)
  | ldB x =>
    cases h : s.memWrite s.i.toNat (decimalDigits (s.getV x)) with
    | none => exact .inl ⟨.memoryAddressOutOfRange, .inr ⟨x, rfl⟩, by simp only [exec, execLdB, h]⟩
    | some stored =>
      obtain ⟨-, rfl⟩ := memWrite_eq_some.1 h
      simp only [exec, execLdB, h]
      refine .inr ⟨_, rfl, .advance rfl (writes_frame s _ _) ?_ rfl⟩
      rintro p ⟨_, rfl, -⟩
      exact ⟨x, .inl rfl⟩
  | ldStore x =>
    obtain ⟨-, h⟩ | ⟨-, h⟩ := blockOperand_cases s x
    · exact .inl ⟨.registerIndexOutOfRange, ⟨x, .inl rfl⟩, by simp only [exec, execLdStore, h]⟩
    · simp only [exec, execLdStore, h]
      refine .inr ⟨_, rfl, .advance rfl ((writes_frame s _ _).trans (setI_frame _ _)) ?_ rfl⟩
      rintro p (⟨_, rfl, -⟩ | rfl)
      · exact ⟨x, .inr rfl⟩
      · exact .inr ⟨x, .inr (.inr (.inl rfl))⟩
  | ldLoad x =>
    obtain ⟨-, h⟩ | ⟨hx, h⟩ := blockOperand_cases s x
    · exact .inl ⟨.registerIndexOutOfRange, ⟨x, .inr rfl⟩, by simp only [exec, execLdLoad, h]⟩
    · have hregs := setRegs_frame s s.i.toNat (s.readBytes s.i.toNat (x.toNat + 1)) (by rw [readBytes_length]; omega)
      simp only [exec, execLdLoad, h]
      refine .inr ⟨_, rfl, .advance rfl (hregs.trans (setI_frame _ _)) ?_ ?_⟩
      · rintro p (⟨r, rfl, hlo, hhi⟩ | rfl)
        · rw [readBytes_length] at hhi
          exact .inr (.inr ⟨x, rfl, hx, hlo, by omega⟩)
        · exact .inr ⟨x, .inr (.inr (.inr rfl))⟩
      · rw [setI_pc, setRegs_eq]

/-- `exec_effect`, read from the state an instruction answers. -/
theorem exec_next_cases {i : Instr} {s t : State} (h : exec i s = .next t) :
    (∃ c, RaisedBy c i ∧ t = { s with faultCause := c }) ∨ Completes i s t := by
  obtain ⟨c, hc, he⟩ | ⟨u, he, hu⟩ := exec_effect i s
  · rw [he] at h
    exact .inl ⟨c, hc, by cases h; rfl⟩
  · rw [he] at h
    cases h
    exact .inr hu

/-- The frame of any instruction, whether it completes or faults. -/
theorem exec_frame {i : Instr} {s t : State} (h : exec i s = .next t) :
    OnlyChanges (fun p => WrittenBy p i s ∨ p = .fault) s t := by
  obtain ⟨c, -, rfl⟩ | ht := exec_next_cases h
  · exact (latch_frame s c).mono fun _ => .inr
  · exact ht.frame.mono fun _ => .inl

/-- A part that reads otherwise after an instruction is written by it. -/
theorem writtenBy_of_not_same {i : Instr} {s t : State} (h : exec i s = .next t) {p : Part} (hp : p ≠ .fault)
    (hne : ¬ p.same s t) : WrittenBy p i s :=
  Classical.byContradiction fun hw => hne (exec_frame h p fun h => h.elim hw hp)

/-! ## Who writes what (R10, R12) -/

/-- Keypads that read the same at every key are the same. -/
theorem keys_eq_of_keyDown {s t : State} (h : ∀ k, t.keyDown k = s.keyDown k) : t.keys = s.keys :=
  Vector.ext fun k hk => h (BitVec.ofFin ⟨k, hk⟩)

/-- Settles O55: each clause is one part of `exec_frame`; the two about `PC` and the latch are the two ends of an
instruction. -/
theorem stateWrittenBy : Obligations.StateWrittenBy := by
  intro i s t h
  have written {p : Part} (hp : p ≠ .fault) (hne : ¬ p.same s t) : WrittenBy p i s := writtenBy_of_not_same h hp hne
  have kept {p : Part} (hp : p ≠ .fault) (hw : ¬ WrittenBy p i s) : p.same s t :=
    exec_frame h p fun h => h.elim hw hp
  refine ⟨fun r hr => ?reg, ?pc, ?fault, ?mem, ?stack, written (p := .sp) nofun, written (p := .i) nofun,
    written (p := .dt) nofun, written (p := .st) nofun, keys_eq_of_keyDown fun k => kept (p := .key k) nofun id,
    written (p := .halted) nofun, written (p := .pending) nofun, ?disp, ?rand, written (p := .dispPulses) nofun,
    kept (p := .unknownPulses) nofun id, kept (p := .policy) nofun id, kept (p := .inbox) nofun id,
    kept (p := .launch) nofun id⟩
  case reg =>
    exact (written (p := .reg r) nofun hr).imp_right (Or.imp_right fun ⟨x, hi, _, hlo, hhi⟩ => ⟨x, hi, hlo, hhi⟩)
  case pc =>
    intro hne
    obtain ⟨c, -, rfl⟩ | ht := exec_next_cases h
    · exact absurd rfl hne
    · exact ht.faultCause
  case fault =>
    intro hne
    obtain ⟨c, hc, rfl⟩ | ht := exec_next_cases h
    · exact hc
    · exact absurd ht.faultCause hne
  case mem =>
    rintro ⟨a, ha⟩
    exact written (p := .mem a) nofun ha
  case stack =>
    intro hne
    by_contra hw
    exact hne (Vector.ext fun k hk => kept (p := .slot ⟨k, hk⟩) nofun hw)
  case disp =>
    intro hne
    by_contra hw
    exact hne (grid_ext fun row col => kept (p := .pixel row col) nofun hw)
  case rand => exact fun hne => hne.elim (written (p := .evRand) nofun) (written (p := .randIndex) nofun)

/-- SHR's flag is 0 or 1 (R130). -/
theorem lowBitFlag_cases (a : Byte) : lowBitFlag a = 0 ∨ lowBitFlag a = 1 := by
  have h := lowBitFlag_toNat a
  simp only [← BitVec.toNat_inj, h]
  exact Nat.mod_two_eq_zero_or_one _

/-- SHL's flag is 0 or 1 (R132). -/
theorem highBitFlag_cases (a : Byte) : highBitFlag a = 0 ∨ highBitFlag a = 1 := by
  have h := highBitFlag_toNat a
  have := a.isLt
  simp only [← BitVec.toNat_inj, h]
  show a.toNat / 128 = 0 ∨ a.toNat / 128 = 1
  omega

/-- Every flag instruction ends with a flag to `VF` and `next` (R121). -/
theorem vf_setV_advance (s : State) {f : Byte} (hf : f = 0 ∨ f = 1) :
    (s.setV 0xF f).advance.getV 0xF = 0 ∨ (s.setV 0xF f).advance.getV 0xF = 1 := by
  rwa [getV_advance, getV_setV_self]

/-- A flag instruction that completes leaves 0 or 1 in `VF` (R12). -/
theorem vf_of_writesFlag {i : Instr} {s t : State} (h : exec i s = .next t) (hw : writesFlag i = true)
    (ht : t.faultCause = .noFault) : t.getV 0xF = 0 ∨ t.getV 0xF = 1 := by
  cases i with
  | addReg x y => cases h; exact vf_setV_advance _ (flagByte_cases _)
  | sub x y => cases h; exact vf_setV_advance _ (flagByte_cases _)
  | subn x y => cases h; exact vf_setV_advance _ (flagByte_cases _)
  | shr x y => cases h; exact vf_setV_advance _ (lowBitFlag_cases _)
  | shl x y => cases h; exact vf_setV_advance _ (highBitFlag_cases _)
  | addI x => cases h; exact vf_setV_advance _ (flagByte_cases _)
  | drw x y n =>
    cases hb : s.spriteOperand n with
    | none =>
      simp only [exec, execDrw, hb] at h
      cases h
      cases ht
    | some bytes =>
      simp only [exec, execDrw, hb] at h
      cases h
      exact vf_setV_advance _ (flagByte_cases _)
  | _ => cases hw

/-- The kinds that name VF as their destination and write no flag. -/
theorem destination_vf {i : Instr} (hw : writesFlag i = false) (hd : destination i = some 0xF) :
    (∃ kk, i = .ldByte 0xF kk ∨ i = .addByte 0xF kk ∨ i = .rnd 0xF kk) ∨
      (∃ y, i = .ldReg 0xF y ∨ i = .orReg 0xF y ∨ i = .andReg 0xF y ∨ i = .xorReg 0xF y) ∨ i = .ldVxDT 0xF := by
  cases i with
  | ldByte x kk => cases hd; exact .inl ⟨kk, .inl rfl⟩
  | addByte x kk => cases hd; exact .inl ⟨kk, .inr (.inl rfl)⟩
  | rnd x kk => cases hd; exact .inl ⟨kk, .inr (.inr rfl)⟩
  | ldReg x y => cases hd; exact .inr (.inl ⟨y, .inl rfl⟩)
  | orReg x y => cases hd; exact .inr (.inl ⟨y, .inr (.inl rfl)⟩)
  | andReg x y => cases hd; exact .inr (.inl ⟨y, .inr (.inr (.inl rfl))⟩)
  | xorReg x y => cases hd; exact .inr (.inl ⟨y, .inr (.inr (.inr rfl))⟩)
  | ldVxDT x => cases hd; exact .inr (.inr rfl)
  | addReg | sub | shr | subn | shl => cases hw
  | _ => cases hd

/-- Settles O56: the clause about the other instructions is `exec_frame` at `VF`, where a block load that completes ends at
the last register. -/
theorem vfWrittenBy : Obligations.VfWrittenBy := by
  intro i s t h
  refine ⟨fun hw _ => vf_of_writesFlag h hw, fun hw hne => ?_⟩
  obtain hd | ⟨hf, -⟩ | ⟨x, hi, hle, -, hge⟩ := writtenBy_of_not_same h (p := .reg 0xF) nofun hne
  · obtain hb | hr | hdt := destination_vf hw hd
    · exact .inl hb
    · exact .inr (.inl hr)
    · exact .inr (.inr (.inl hdt))
  · rw [hf] at hw
    cases hw
  · exact .inr (.inr (.inr ⟨x, hi, Nat.le_antisymm hle hge⟩))

/-! ## The bound on `PC` (R13) -/

theorem PcBounded.congr {s t : State} (h : PcBounded s) (hpc : t.pc = s.pc) (hsp : t.sp = s.sp)
    (hstack : t.stack = s.stack) : PcBounded t := by
  unfold PcBounded
  rw [hpc, hsp, hstack]
  exact h

theorem addrWord_toNat (nnn : Addr) : (addrWord nnn).toNat = nnn.toNat := by
  have := nnn.isLt
  rw [addrWord, BitVec.toNat_setWidth]
  omega

/-- A new `PC` keeps the bound when it is in range itself. -/
theorem PcBounded.setPc {s : State} (h : PcBounded s) {w : Word} (hw : w.toNat ≤ 0x10FE) : PcBounded (s.setPc w) :=
  ⟨hw, h.2⟩

/-- JP V0 reaches the bound: 0x0FFF + 0x00FF (R108). -/
theorem jpV0_target_le (nnn : Addr) (b : Byte) : (addrWord nnn + byteWord b).toNat ≤ 0x10FE := by
  have := nnn.isLt
  have := b.isLt
  rw [BitVec.toNat_add, addrWord_toNat, byteWord, BitVec.toNat_setWidth]
  omega

/-- A popped return address is one the bound speaks of (R101). -/
theorem PcBounded.pop {s t : State} {w : Word} (h : PcBounded s) (hp : s.pop? = some (w, t)) :
    w.toNat ≤ 0x1000 ∧ PcBounded t := by
  obtain ⟨hpc, hslots⟩ := h
  obtain ⟨-, hn⟩ | ⟨hpos, h₁, _, ht⟩ := pop?_cases s
  · rw [hn] at hp; cases hp
  rw [ht] at hp
  cases hp
  refine ⟨hslots ⟨_, h₁⟩ (Nat.sub_lt hpos Nat.one_pos), hpc, fun k hk => hslots k ?_⟩
  exact Nat.lt_of_lt_of_le hk (Nat.sub_le _ _)

/-- A pushed return address joins the used slots (R103). -/
theorem PcBounded.push {s t : State} {w : Word} (h : PcBounded s) (hw : w.toNat ≤ 0x1000) (hp : s.push? w = some t) :
    PcBounded t := by
  obtain ⟨hpc, hslots⟩ := h
  obtain ⟨-, hn⟩ | ⟨_, _, ht, rfl⟩ := push?_cases s w
  · rw [hn] at hp; cases hp
  rw [ht] at hp
  cases hp
  refine ⟨hpc, fun k hk => ?_⟩
  show ((s.stack.set s.sp.val w)[k.val]).toNat ≤ 0x1000
  rw [Vector.getElem_set]
  split
  · exact hw
  · next hne =>
    have hk' : k.val < s.sp.val + 1 := hk
    exact hslots k (by omega)

/-- The range of the fetch bounds where `next` and `skip` lead. -/
theorem PcRule.Follows.le {rule : PcRule} {s t : State} (h : rule.Follows s t) (hrule : rule ≠ .target)
    (hf : s.pc.toNat + 2 ≤ 4096) : t.pc.toNat ≤ 0x10FE := by
  have h₂ : (s.pc + 2).toNat ≤ 0x10FE := by bv_omega
  have h₄ : (s.pc + 4).toNat ≤ 0x10FE := by bv_omega
  cases rule with
  | sequential => exact h ▸ h₂
  | conditional => exact h.elim (fun e => e ▸ h₂) fun e => e ▸ h₄
  | target => exact absurd rfl hrule

/-- An instruction that is no jump, call or return keeps the stack, and `PC` follows its rule. -/
theorem PcBounded.completes {i : Instr} {s t : State} (h : PcBounded s) (ht : Completes i s t) (hi : pcRule i ≠ .target)
    (hf : s.pc.toNat + 2 ≤ 4096) : PcBounded t := by
  have hcall : ∀ nnn, i ≠ .call nnn := fun _ e => hi (e ▸ rfl)
  have hret : i ≠ .ret := fun e => hi (e ▸ rfl)
  have hsp : t.sp = s.sp := ht.frame .sp fun hw => hw.elim hret fun ⟨nnn, e⟩ => hcall nnn e
  have hslot : ∀ k : Fin 16, t.stack[k.val] = s.stack[k.val] := fun k =>
    ht.frame (.slot k) fun ⟨nnn, e⟩ => hcall nnn e
  exact ⟨ht.pc.le hi hf, fun k hk => hslot k ▸ h.2 k (hsp ▸ hk)⟩

/-- A fetched instruction keeps the bound. -/
theorem PcBounded.exec {i : Instr} {s t : State} (h : PcBounded s) (hf : s.pc.toNat + 2 ≤ 4096)
    (he : exec i s = .next t) : PcBounded t := by
  obtain ⟨c, -, rfl⟩ | ht := exec_next_cases he
  · exact h.congr rfl rfl rfl
  by_cases hi : pcRule i ≠ .target
  · exact h.completes ht hi hf
  cases i with
  | jp nnn =>
    cases he
    exact h.setPc (by rw [addrWord_toNat]; omega)
  | jpV0 nnn =>
    cases he
    exact h.setPc (jpV0_target_le nnn _)
  | call nnn =>
    cases hp : s.push? (s.pc + 2) with
    | none =>
      simp only [Machine.exec, execCall, hp] at he
      cases he
      exact h.congr rfl rfl rfl
    | some pushed =>
      simp only [Machine.exec, execCall, hp] at he
      cases he
      have hret : (s.pc + 2).toNat ≤ 0x1000 := by bv_omega
      exact (h.push hret hp).setPc (by rw [addrWord_toNat]; omega)
  | ret =>
    cases hp : s.pop? with
    | none =>
      simp only [Machine.exec, execRet, hp] at he
      cases he
      exact h.congr rfl rfl rfl
    | some popped =>
      simp only [Machine.exec, execRet, hp] at he
      cases he
      obtain ⟨hw, hpop⟩ := h.pop hp
      exact hpop.setPc (Nat.le_trans hw (by decide))
  | _ => exact absurd nofun hi

/-- STEP keeps the bound. -/
theorem PcBounded.cycle {s t : State} (h : PcBounded s) (hc : cycle s = .next t) : PcBounded t := by
  obtain ⟨-, he⟩ | ⟨-, -, he⟩ | ⟨raw, -, hf, -, ⟨-, he⟩ | ⟨i, -, he⟩⟩ := cycle_cases s
  · rw [he] at hc
    cases hc
    exact h
  · rw [he] at hc
    cases hc
    exact h.congr rfl rfl rfl
  · rw [he, unknownWord] at hc
    split at hc
    · cases hc
      exact h.congr rfl rfl rfl
    · cases hc
      exact ⟨PcRule.Follows.le (rule := .sequential) rfl nofun hf, h.2⟩
  · exact h.exec hf (he ▸ hc)

/-- Where `onNext` answers a next state, so did the outcome under it. -/
theorem onNext_eq_next {f : State → State} {o : Outcome} {t : State} (h : onNext f o = .next t) :
    ∃ u, o = .next u ∧ t = f u := by
  cases o with
  | next u => cases h; exact ⟨u, rfl, rfl⟩
  | fault q => cases h
  | refused q => cases h

/-- Every event keeps the bound; RESET establishes it. -/
theorem PcBounded.perform {e : Event} {s t : State} (h : PcBounded s) (hp : perform e s = .next t) : PcBounded t := by
  cases e with
  | reset image =>
    simp only [Machine.perform, hostReset] at hp
    split at hp
    · cases hp
      exact ⟨(by decide : (0x0200#16).toNat ≤ 0x10FE), fun k hk => absurd hk (Nat.not_lt_zero _)⟩
    · cases hp
  | step r =>
    obtain ⟨u, hu, rfl⟩ := onNext_eq_next hp
    have hr : PcBounded { s with evRand := some r } := h.congr rfl rfl rfl
    exact (hr.cycle hu).congr rfl rfl rfl
  | tick =>
    cases hp
    exact h.congr rfl rfl rfl
  | keyPress k =>
    cases hp
    unfold keyPress
    split <;> exact h.congr rfl rfl rfl
  | keyRelease k =>
    cases hp
    exact h.congr rfl rfl rfl

/-- Settles O52: the bound on `PC` is inductive together with the bound on the return addresses; a step is one STEP or the
oldest event. -/
theorem pcBoundKept : Obligations.PcBoundKept := by
  intro s t h hstep
  unfold step nextEvent at hstep
  split at hstep
  · exact h.cycle hstep
  · next e rest _ =>
    have hinbox : PcBounded { s with inbox := rest } := h.congr rfl rfl rfl
    exact hinbox.perform hstep

/-! ## What an instruction does not read (R15, R16) -/

/-- The sound timer and the call stack replaced by functions of themselves. -/
def State.mapHidden (g : Byte → Byte) (f : Vector Word 16 → Vector Word 16) (s : State) : State :=
  { s with st := g s.st, stack := f s.stack }

section

variable (g : Byte → Byte) (f : Vector Word 16 → Vector Word 16) (s : State)

theorem skipIf_mapHidden (c : Bool) : (s.mapHidden g f).skipIf c = (s.skipIf c).mapHidden g f := by
  cases c <;> rfl

theorem useRandom_mapHidden : (s.mapHidden g f).useRandom = s.useRandom.mapHidden g f := by
  unfold State.useRandom
  rw [show (s.mapHidden g f).evRand = s.evRand from rfl]
  split <;> rfl

theorem memWrite_mapHidden (a : Nat) (bytes : List Byte) :
    (s.mapHidden g f).memWrite a bytes = (s.memWrite a bytes).map (State.mapHidden g f) := by
  unfold State.memWrite
  split <;> rfl

theorem setRegs_mapHidden (first : Nat) (bytes : List Byte) :
    (s.mapHidden g f).setRegs first bytes = (s.setRegs first bytes).mapHidden g f := by
  induction bytes generalizing s first with
  | nil => rfl
  | cons b rest ih => exact ih (s.setV _ b) (first + 1)

/-- Only LD ST touches the sound timer, and only CALL and RET the stack: to every other instruction both are hidden. -/
theorem exec_mapHidden {i : Instr} (hst : ∀ x, i ≠ .ldSTVx x) (hcall : ∀ nnn, i ≠ .call nnn) (hret : i ≠ .ret) :
    exec i (s.mapHidden g f) = onNext (State.mapHidden g f) (exec i s) := by
  cases i with
  | ldSTVx x => exact absurd rfl (hst x)
  | call nnn => exact absurd rfl (hcall nnn)
  | ret => exact absurd rfl hret
  | seByte x kk => exact congrArg _ (skipIf_mapHidden g f s _)
  | sneByte x kk => exact congrArg _ (skipIf_mapHidden g f s _)
  | seReg x y => exact congrArg _ (skipIf_mapHidden g f s _)
  | sneReg x y => exact congrArg _ (skipIf_mapHidden g f s _)
  | skp x =>
    have hk : (s.mapHidden g f).keyOperand x = s.keyOperand x := rfl
    simp only [exec, execSkp, hk]
    cases s.keyOperand x with
    | none => rfl
    | some k => exact congrArg _ (skipIf_mapHidden g f s _)
  | sknp x =>
    have hk : (s.mapHidden g f).keyOperand x = s.keyOperand x := rfl
    simp only [exec, execSknp, hk]
    cases s.keyOperand x with
    | none => rfl
    | some k => exact congrArg _ (skipIf_mapHidden g f s _)
  | rnd x kk =>
    simp only [exec, execRnd, useRandom_mapHidden]
    rfl
  | drw x y n =>
    have hb : (s.mapHidden g f).spriteOperand n = s.spriteOperand n := rfl
    simp only [exec, execDrw, hb]
    cases s.spriteOperand n <;> rfl
  | ldB x =>
    have hi : (s.mapHidden g f).i = s.i := rfl
    have hx : (s.mapHidden g f).getV x = s.getV x := rfl
    simp only [exec, execLdB, hi, hx, memWrite_mapHidden]
    cases s.memWrite s.i.toNat (decimalDigits (s.getV x)) <;> rfl
  | ldStore x =>
    have hb : (s.mapHidden g f).blockOperand x = s.blockOperand x := rfl
    simp only [exec, execLdStore, hb]
    cases s.blockOperand x <;> rfl
  | ldLoad x =>
    have hb : (s.mapHidden g f).blockOperand x = s.blockOperand x := rfl
    simp only [exec, execLdLoad, hb, setRegs_mapHidden]
    cases s.blockOperand x <;> rfl
  | _ => rfl

end

/-- A push does not read the sound timer. -/
theorem push?_setSt (s : State) (b : Byte) (w : Word) :
    ({ s with st := b } : State).push? w = (s.push? w).map fun t => { t with st := b } := by
  unfold State.push?
  split <;> rfl

/-- A pop does not read the sound timer. -/
theorem pop?_setSt (s : State) (b : Byte) :
    ({ s with st := b } : State).pop? = s.pop?.map fun p => (p.1, { p.2 with st := b }) := by
  unfold State.pop?
  split <;> rfl

/-- Settles O57: `ST` is hidden from every instruction but LD ST, which overwrites it. -/
theorem soundTimerNeverRead : Obligations.SoundTimerNeverRead := by
  intro i s b
  refine ⟨fun hst => ?_, fun x hx => hx ▸ rfl⟩
  cases i with
  | call nnn =>
    simp only [exec, execCall]
    rw [push?_setSt]
    cases s.push? (s.pc + 2) <;> rfl
  | ret =>
    simp only [exec, execRet]
    rw [pop?_setSt]
    cases s.pop? <;> rfl
  | _ => exact exec_mapHidden (fun _ => b) id s hst nofun nofun

/-- Another value in slot `k`, as long as the slot is free (R15). -/
def State.setFreeSlot (k : Fin 16) (w : Word) (s : State) : State :=
  { s with stack := if s.sp.val ≤ k.val then s.stack.set k.val w else s.stack }

section

variable {k : Fin 16} {s : State} (w : Word)

theorem setFreeSlot_of_le (h : s.sp.val ≤ k.val) : s.setFreeSlot k w = { s with stack := s.stack.set k.val w } := by
  rw [State.setFreeSlot, if_pos h]

theorem setFreeSlot_of_lt (h : k.val < s.sp.val) : s.setFreeSlot k w = s := by
  rw [State.setFreeSlot, if_neg (Nat.not_le_of_gt h)]

/-- The update as a choice between whole states. -/
theorem setFreeSlot_eq_ite (k : Fin 16) (s : State) :
    s.setFreeSlot k w = if s.sp.val ≤ k.val then { s with stack := s.stack.set k.val w } else s := by
  split
  · next h => exact setFreeSlot_of_le w h
  · next h => exact setFreeSlot_of_lt w (Nat.lt_of_not_le h)

/-- A pop reads below `SP`, and the free slot stays free. -/
theorem pop?_setFreeSlot (h : s.sp.val ≤ k.val) :
    (s.setFreeSlot k w).pop? = s.pop?.map fun p => (p.1, p.2.setFreeSlot k w) := by
  rw [setFreeSlot_of_le w h]
  obtain ⟨h₀, hn⟩ | ⟨hpos, _, h₂, hp⟩ := pop?_cases s
  · rw [hn]
    exact dif_neg (by rw [h₀]; exact Nat.lt_irrefl 0)
  · have hfree : (⟨s.sp.val - 1, h₂⟩ : Fin 17).val ≤ k.val := Nat.le_trans (Nat.sub_le _ _) h
    have hread : (s.stack.set k.val w)[s.sp.val - 1] = s.stack[s.sp.val - 1] :=
      Vector.getElem_set_ne _ _ (by omega)
    rw [hp, Option.map_some, setFreeSlot_of_le w hfree]
    unfold State.pop?
    rw [dif_pos hpos, hread]

/-- A push overwrites the slot at `SP` and leaves those above free. -/
theorem push?_setFreeSlot (h : s.sp.val ≤ k.val) (v : Word) :
    (s.setFreeSlot k w).push? v = (s.push? v).map (State.setFreeSlot k w) := by
  have hlt : s.sp.val < 16 := Nat.lt_of_le_of_lt h k.isLt
  rw [setFreeSlot_of_le w h]
  unfold State.push?
  rw [dif_pos hlt, dif_pos hlt, Option.map_some]
  refine congrArg some ?_
  by_cases hk : s.sp.val + 1 ≤ k.val
  · have hne : k.val ≠ s.sp.val := by omega
    rw [setFreeSlot_of_le w hk, Vector.set_comm _ _ hne]
  · have heq : s.sp.val = k.val := by omega
    rw [setFreeSlot_of_lt w (Nat.lt_of_not_le hk)]
    simp only [heq, Vector.set_set]

end

theorem onNext_congr {f g : State → State} {o : Outcome} (h : ∀ t, o = .next t → f t = g t) : onNext f o = onNext g o := by
  cases o with
  | next t => exact congrArg _ (h t rfl)
  | fault q => rfl
  | refused q => rfl

/-- Settles O58: the stack is hidden from every instruction but CALL, which writes the slot at `SP`, and RET, which reads
the one below it. -/
theorem freeSlotsUnobservable : Obligations.FreeSlotsUnobservable := by
  intro i s k w h
  simp only [← setFreeSlot_eq_ite]
  have keepsSp (hcall : ∀ nnn, i ≠ .call nnn) (hret : i ≠ .ret) :
      onNext (State.mapHidden id (·.set k.val w)) (exec i s) = onNext (State.setFreeSlot k w) (exec i s) := by
    refine onNext_congr fun t ht => (setFreeSlot_of_le w ?_).symm
    have hsp : t.sp = s.sp := exec_frame ht .sp (by simp [WrittenBy, hcall, hret])
    exact hsp ▸ h
  cases i with
  | call nnn =>
    rw [← setFreeSlot_of_le w h]
    simp only [exec, execCall]
    rw [show (s.setFreeSlot k w).pc = s.pc from rfl, push?_setFreeSlot w h]
    cases s.push? (s.pc + 2) <;> rfl
  | ret =>
    rw [← setFreeSlot_of_le w h]
    simp only [exec, execRet]
    rw [pop?_setFreeSlot w h]
    cases s.pop? <;> rfl
  | ldSTVx x => exact keepsSp nofun nofun
  | _ => exact Eq.trans (exec_mapHidden id (·.set k.val w) s nofun nofun nofun) (keepsSp nofun nofun)

/-! ## The state after reset (R25) -/

/-- The font ends at 0x04F: from 0x050 on, empty memory holds no stated byte (R41, R202). -/
theorem byte?_nil_of_le {a : Nat} (h : 0x050 ≤ a) : Memory.byte? [] a = none :=
  List.getElem?_eq_none h

/-- Settles O15, field by field; the font is what empty memory holds. -/
theorem resetValues : Obligations.ResetValues :=
  ⟨rfl, rfl, fun k => Vector.getElem_replicate k.isLt, fun x => Vector.getElem_replicate x.isLt, rfl, rfl, rfl,
    fun k => Vector.getElem_replicate k.isLt, rfl, rfl, pixel_clear, rfl, fun _ => rfl, fun _ => byte?_nil_of_le⟩

end Sys2Proof.Machine

end

section
/-! SUPPORT. The accesses of spec/20_memory.md: the fetch as a number, the store of LD B where it is in range, and the font
read from the reset state. -/

namespace Sys2Proof.Machine

/-! ## The fetch (R43, R51) -/

theorem wordOfBytes_toNat (hi lo : Byte) : (wordOfBytes hi lo).toNat = hi.toNat * 256 + lo.toNat := by
  have hlo : lo.toNat < 2 ^ 8 := lo.isLt
  rw [wordOfBytes, BitVec.toNat_append, ← Nat.shiftLeft_add_eq_or_of_lt hlo, Nat.shiftLeft_eq]

/-- A fetch in range, as a number (R43). -/
theorem fetch_toNat {s : State} (h : s.pc.toNat + 2 ≤ 4096) :
    ∃ raw, s.fetch = some raw ∧
      raw.toNat = (s.readByte s.pc.toNat).toNat * 256 + (s.readByte (s.pc.toNat + 1)).toNat :=
  ⟨_, by rw [fetch_eq, if_pos h], wordOfBytes_toNat _ _⟩

/-- Settles O6: the fetch joins its two bytes, the high one first. -/
theorem fetchIsBigEndian : Obligations.FetchIsBigEndian := fun _ => fetch_toNat

/-- LD B in range stores the digits and goes on. -/
theorem exec_ldB_of_le (x : Nibble) {s : State} (h : s.i.toNat + 3 ≤ 4096) :
    exec (.ldB x) s =
      .next ({ s with mem := s.mem.writes s.i.toNat (decimalDigits (s.getV x)) } : State).advance := by
  have hstore := memWrite_eq_some (s := s) (bytes := decimalDigits (s.getV x)).2 ⟨.inr h, rfl⟩
  simp only [exec, execLdB, hstore]

/-- What LD B in range leaves in memory, as numbers: hundreds, tens and ones (R143). -/
theorem exec_ldB_digits (x : Nibble) {s : State} (h : s.i.toNat + 3 ≤ 4096) :
    ∃ t, exec (.ldB x) s = .next t ∧ t.pc = s.pc + 2 ∧
      (t.readByte s.i.toNat).toNat = (s.getV x).toNat / 100 ∧
      (t.readByte (s.i.toNat + 1)).toNat = (s.getV x).toNat / 10 % 10 ∧
      (t.readByte (s.i.toNat + 2)).toNat = (s.getV x).toNat % 10 := by
  refine ⟨_, exec_ldB_of_le x h, rfl, ?_⟩
  simp [readByte_writes, decimalDigits]

/-- Settles O41: after LD B over the next word, `PC` has reached the stored digits, and the fetch joins the first two. -/
theorem storeSeenByNextFetch : Obligations.StoreSeenByNextFetch := by
  intro x s hi hpc
  have haddr : s.i.toNat = s.pc.toNat + 2 := by bv_omega
  obtain ⟨t, hexec, hnext, hhundreds, htens, -⟩ := exec_ldB_digits (s := s) x (by omega)
  have hfetchAt : t.pc = s.i := hnext.trans hi.symm
  obtain ⟨raw, hfetch, hraw⟩ := fetch_toNat (s := t) (by rw [hfetchAt]; omega)
  rw [hfetchAt, hhundreds, htens] at hraw
  exact ⟨t, raw, hexec, hfetch, hraw⟩

/-! ## The font (R42) -/

/-- At reset memory lists nothing, so that below 0x050 its bytes are the font's. -/
theorem readBytes_reset_font {a n : Nat} (h : a + n ≤ fontTable.length) :
    State.reset.readBytes a n = (fontTable.drop a).take n := by
  refine List.ext_getElem (by simp; omega) fun k hk _ => ?_
  have hlt : a + k < fontTable.length := by rw [readBytes_length] at hk; omega
  have hbyte : Memory.byte? State.reset.mem (a + k) = some fontTable[a + k] := List.getElem?_eq_getElem hlt
  rw [readBytes_getElem, State.readByte, hbyte, Option.getD_some, List.getElem_take, List.getElem_drop]

/-- Settles O16: the glyph of `d` is the five bytes of the font table at 5 times `d`. -/
theorem fontGlyphs : Obligations.FontGlyphs := by
  unfold Obligations.FontGlyphs
  intro glyph
  have glyph_eq (d : Nat) (hd : 5 * d + 5 ≤ fontTable.length) : glyph d = (fontTable.drop (5 * d)).take 5 :=
    readBytes_reset_font hd
  simp (disch := decide) only [glyph_eq]
  decide

end Sys2Proof.Machine

end

section
/-! SUPPORT. The opcode map as the specification of the decoder (spec/30_encoding.md R64, R65, R67), the instruction cycle
(R71, R173) and where it leaves `PC` (R72). That no two rows match the same word is read off masks, templates and exclusions
(`OpcodeRow.apart`); the words of no kind are read off the tests of fields (`fieldTests`). -/

namespace Sys2Proof

/-! ## Rows as masks and templates (R64, R65) -/

theorem OpcodeRow.matches_iff (row : OpcodeRow) (raw : Word) :
    row.matches raw = true ↔ raw &&& row.mask = row.template ∧ raw ∉ row.excludes := by
  simp [OpcodeRow.matches]

/-- The templates of two rows differ on the bits both rows compare, or `b` stands for one word, which `a` excludes. -/
def OpcodeRow.apart (a b : OpcodeRow) : Bool :=
  a.template &&& b.mask != b.template &&& a.mask || b.mask == BitVec.allOnes 16 && a.excludes.contains b.template

theorem OpcodeRow.not_both_match {a b : OpcodeRow} (h : a.apart b = true) (raw : Word) :
    ¬ (a.matches raw = true ∧ b.matches raw = true) := by
  rw [OpcodeRow.matches_iff, OpcodeRow.matches_iff]
  rintro ⟨⟨ha, hex⟩, hb, -⟩
  simp only [OpcodeRow.apart, Bool.or_eq_true, Bool.and_eq_true, bne_iff_ne, beq_iff_eq, List.contains_iff_mem] at h
  obtain hne | ⟨hmask, hmem⟩ := h
  · exact hne (by rw [← ha, ← hb, BitVec.and_assoc, BitVec.and_assoc, BitVec.and_comm a.mask])
  · rw [hmask, BitVec.and_allOnes] at hb
    exact hex (hb ▸ hmem)

theorem opcodeMap_apart : opcodeMap.Pairwise (fun a b => a.apart b = true) := by
  decide

/-- No word has two kinds. -/
theorem opcodeMap_disjoint (raw : Word) :
    opcodeMap.Pairwise (fun a b => ¬ (a.matches raw = true ∧ b.matches raw = true)) :=
  opcodeMap_apart.imp fun h => OpcodeRow.not_both_match h raw

/-- The row that matches a word is the one the decoder finds. -/
theorem find?_row {row : OpcodeRow} {raw : Word} (hrow : row ∈ opcodeMap) (hm : row.matches raw = true) :
    opcodeMap.find? (fun row => row.matches raw) = some row := by
  obtain ⟨before, after, hsplit⟩ := List.append_of_mem hrow
  have hdisj := opcodeMap_disjoint raw
  rw [hsplit] at hdisj ⊢
  refine List.find?_eq_some_iff_append.2 ⟨hm, before, after, rfl, fun other hother => ?_⟩
  have hnot := (List.pairwise_append.1 hdisj).2.2 other hother row List.mem_cons_self
  simpa [hm] using hnot

/-- The decoder answers what a row that matches the word builds. -/
theorem classify_eq_some_iff (raw : Word) (i : Instr) :
    classify raw = some i ↔ ∃ row ∈ opcodeMap, row.matches raw = true ∧ row.build raw = i := by
  rw [classify, Option.map_eq_some_iff]
  constructor
  · rintro ⟨row, hfind, hbuild⟩
    exact ⟨row, List.mem_of_find?_eq_some hfind, List.find?_some (p := (OpcodeRow.matches · raw)) hfind, hbuild⟩
  · rintro ⟨row, hrow, hm, hbuild⟩
    exact ⟨row, find?_row hrow hm, hbuild⟩

/-- The decoder answers none where no row matches. -/
theorem classify_eq_none_iff (raw : Word) : classify raw = none ↔ ∀ row ∈ opcodeMap, ¬ row.matches raw = true := by
  rw [classify, Option.map_eq_none_iff, List.find?_eq_none]

/-- Settles O4: the rows are pairwise disjoint, so that the first row the decoder finds is the only one. -/
theorem classifyByMaskAndTemplate : Obligations.ClassifyByMaskAndTemplate := by
  refine ⟨rfl, fun raw => ⟨opcodeMap_disjoint raw, fun i => ?_, ?_⟩⟩
  · simp only [classify_eq_some_iff, OpcodeRow.matches_iff, and_assoc]
  · simp only [classify_eq_none_iff, OpcodeRow.matches_iff, not_and, not_not]

/-! ## The unknown words (R67) -/

/-- A word of no kind fails every test of fields. -/
theorem classify_eq_none_iff_tests (raw : Word) : classify raw = none ↔ ∀ p ∈ fieldTests raw, p.1 = false := by
  simp only [classify_eq, Option.map_eq_none_iff, List.find?_eq_none, Bool.not_eq_true]

theorem classify_ne_none_of_test {raw : Word} {i : Instr} (h : (true, i) ∈ fieldTests raw) : classify raw ≠ none :=
  fun hnone => Bool.noConfusion ((classify_eq_none_iff_tests raw).1 hnone _ h)

/-- The major opcodes with one row, which compares nothing else (R66). -/
def oneRowMajors : List Nibble := [0x1, 0x2, 0x3, 0x4, 0x6, 0x7, 0xA, 0xB, 0xC, 0xD]

theorem major_cases (o : Nibble) :
    o = 0x0 ∨ o ∈ oneRowMajors ∨ o = 0x5 ∨ o = 0x8 ∨ o = 0x9 ∨ o = 0xE ∨ o = 0xF := by
  revert o; decide

theorem exists_test_of_oneRowMajor (raw : Word) : ∀ o ∈ oneRowMajors, ∃ i, (isOp raw o, i) ∈ fieldTests raw := by
  simp [oneRowMajors, fieldTests, testsLow, testsHigh, exists_or]

/-- Every word of major 0 is SYS, CLS or RET (R65). -/
theorem classify_ne_none_of_op_zero {raw : Word} (h : fieldOp raw = 0) : classify raw ≠ none := by
  by_cases hcls : fieldNNN raw = 0x0E0#12
  · exact classify_ne_none_of_test (i := .cls) (by simp [fieldTests, testsLow, h, hcls])
  by_cases hret : fieldNNN raw = 0x0EE#12
  · exact classify_ne_none_of_test (i := .ret) (by simp [fieldTests, testsLow, h, hret])
  · exact classify_ne_none_of_test (i := .sys (fieldNNN raw)) (by simp [fieldTests, testsLow, h, hcls, hret])

theorem classify_ne_none_of_oneRowMajor {raw : Word} (h : fieldOp raw ∈ oneRowMajors) : classify raw ≠ none := by
  obtain ⟨i, hi⟩ := exists_test_of_oneRowMajor raw _ h
  exact classify_ne_none_of_test (i := i) (by simpa [isOp] using hi)

/-- The nine rows of 8xy* compare the last nibble with nine values; seven are left. -/
theorem not_mem_aluMinors_iff (n : Nibble) :
    n ∉ [0x0#4, 0x1#4, 0x2#4, 0x3#4, 0x4#4, 0x5#4, 0x6#4, 0x7#4, 0xE#4] ↔
      n ∈ [0x8#4, 0x9#4, 0xA#4, 0xB#4, 0xC#4, 0xD#4, 0xF#4] := by
  revert n; decide

/-- Settles O5, by the major opcode. Of the five that leave words over, R67 names the last nibbles left for 8xy*, and those
taken for the four others. -/
theorem unknownWordGroups : Obligations.UnknownWordGroups := by
  intro raw
  obtain hop | hop | hop | hop | hop | hop | hop := major_cases (fieldOp raw)
  · simp [classify_ne_none_of_op_zero hop, hop]
  · refine iff_of_false (classify_ne_none_of_oneRowMajor hop) ?_
    rintro (⟨h, -⟩ | ⟨h, -⟩ | ⟨h, -⟩ | ⟨h, -⟩ | ⟨h, -⟩) <;> exact absurd (h ▸ hop) (by decide)
  all_goals
    simp [classify_eq_none_iff_tests, fieldTests, testsLow, testsAlu, testsHigh, isOp, isOpN, isOpKK, hop]
  case inr.inr.inr.inl => simpa using not_mem_aluMinors_iff (fieldN raw)

/-! ## Fixed words of the map (R66) -/

theorem decodeWord_eq_ok_iff {raw : Word} {i : Instr} : decodeWord raw = .ok i ↔ classify raw = some i := by
  unfold decodeWord
  cases classify raw <;> simp

theorem decodeWord_eq_error_iff {raw : Word} {e : DecodeError} :
    decodeWord raw = .error e ↔ classify raw = none ∧ .unknownOpcode raw = e := by
  unfold decodeWord
  cases classify raw <;> simp

/-- Settles O1, by evaluation of `classify` at each word. -/
theorem specWordsDecode : Obligations.SpecWordsDecode := by
  simp only [Obligations.SpecWordsDecode, decodeWord_eq_ok_iff, decodeWord_eq_error_iff, and_true]
  decide

end Sys2Proof

namespace Sys2Proof.Machine

/-! ## The instruction cycle (R71, R173) -/

theorem cycle_of_gated {s : State} (h : s.faultCause ≠ .noFault ∨ s.haltedForKey = true) : cycle s = .next s := by
  have hg : s.gated = true := by simpa [State.gated] using h
  simp [cycle, hg]

section

variable {s : State} (hcause : s.faultCause = .noFault) (hkey : s.haltedForKey = false)
include hcause hkey

/-- The fetch of an open STEP is out of range (R46). -/
theorem cycle_of_pc_gt (hpc : 4096 < s.pc.toNat + 2) : cycle s = raise .memoryAddressOutOfRange s := by
  obtain ⟨hg, -⟩ | ⟨-, -, h⟩ | ⟨raw, -, hle, -, -⟩ := cycle_cases s
  · rw [gated_eq_false.2 ⟨hcause, hkey⟩] at hg
    cases hg
  · exact h
  · exact absurd hpc (Nat.not_lt.2 hle)

/-- What an open STEP does with the word it fetches. -/
theorem cycle_of_fetch {raw : Word} (hf : s.fetch = some raw) :
    (classify raw = none ∧ cycle s = unknownWord s) ∨ ∃ i, classify raw = some i ∧ cycle s = exec i s := by
  obtain ⟨hg, -⟩ | ⟨-, hgt, -⟩ | ⟨raw', -, -, hf', h⟩ := cycle_cases s
  · rw [gated_eq_false.2 ⟨hcause, hkey⟩] at hg
    cases hg
  · rw [fetch_eq, if_neg (Nat.not_le.2 hgt)] at hf
    cases hf
  · cases hf.symm.trans hf'
    simpa only [decodeWord_eq_error_iff, decodeWord_eq_ok_iff, and_true] using h

end

theorem unknownWord_of_halt {s : State} (h : s.unknownPolicy = .halt) :
    unknownWord s = raise .unknownOpcode s.pulseUnknown := by
  simp only [unknownWord, h]

theorem unknownWord_of_skip {s : State} (h : s.unknownPolicy = .skip) :
    unknownWord s = .next s.pulseUnknown.advance := by
  simp only [unknownWord, h]

/-- What an unknown word does under each policy, with its frame (R173). -/
theorem unknownWord_effect (s : State) :
    ∃ t, unknownWord s = .next t ∧ t.unknownOpcodePulses = s.unknownOpcodePulses + 1 ∧
      (s.unknownPolicy = .halt →
        t.faultCause = .unknownOpcode ∧ OnlyChanges (· ∈ [Part.fault, .unknownPulses]) s t) ∧
      (s.unknownPolicy = .skip → t.pc = s.pc + 2 ∧ OnlyChanges (· ∈ [Part.pc, .unknownPulses]) s t) := by
  cases h : s.unknownPolicy with
  | halt =>
    refine ⟨_, unknownWord_of_halt h, rfl, fun _ => ⟨rfl, ?_⟩, nofun⟩
    exact ((pulseUnknown_frame s).trans (latch_frame _ _)).mono (by simp [or_comm])
  | skip =>
    refine ⟨_, unknownWord_of_skip h, rfl, nofun, fun _ => ⟨rfl, ?_⟩⟩
    exact ((pulseUnknown_frame s).trans (advance_frame _)).mono (by simp [or_comm])

/-- Settles O8, arm by arm of the STEP. -/
theorem stepCycle : Obligations.StepCycle := by
  intro s
  refine ⟨cycle_of_gated, fun hcause hkey => ⟨fun hpc => ?outOfRange, fun raw hf => ⟨fun hnone => ?unknown, ?kind⟩⟩⟩
  case outOfRange => exact ⟨_, cycle_of_pc_gt hcause hkey hpc, rfl, latch_frame s _⟩
  case unknown =>
    obtain ⟨-, hcycle⟩ | ⟨i, hi, -⟩ := cycle_of_fetch hcause hkey hf
    · exact hcycle ▸ unknownWord_effect s
    · rw [hnone] at hi
      cases hi
  case kind =>
    intro i hi
    obtain ⟨hnone, -⟩ | ⟨j, hj, hcycle⟩ := cycle_of_fetch hcause hkey hf
    · rw [hnone] at hi
      cases hi
    · cases hi.symm.trans hj
      exact hcycle

/-! ## Where `PC` is left (R72) -/

/-- The causes an instruction raises are faults (R170). -/
theorem RaisedBy.ne_noFault {c : Cause} {i : Instr} (h : RaisedBy c i) : c ≠ .noFault := by
  rintro rfl
  exact h

/-- An instruction that latches nothing has completed. -/
theorem completes_of_noFault {i : Instr} {s t : State} (h : exec i s = .next t) (ht : t.faultCause = .noFault) :
    Completes i s t := by
  obtain ⟨c, hc, rfl⟩ | hc := exec_next_cases h
  · exact absurd ht hc.ne_noFault
  · exact hc

section

variable {s t : State} (hcause : s.faultCause = .noFault)
include hcause

theorem pc_of_exec_fault {i : Instr} (h : exec i s = .next t) (ht : t.faultCause ≠ .noFault) : t.pc = s.pc := by
  obtain ⟨c, -, rfl⟩ | hc := exec_next_cases h
  · rfl
  · exact absurd (hc.faultCause.trans hcause) ht

theorem pc_of_unknownWord_fault (h : unknownWord s = .next t) (ht : t.faultCause ≠ .noFault) : t.pc = s.pc := by
  cases hp : s.unknownPolicy with
  | halt =>
    cases (unknownWord_of_halt hp).symm.trans h
    rfl
  | skip =>
    cases (unknownWord_of_skip hp).symm.trans h
    exact absurd hcause ht

end

/-- A STEP that ends with a fault latched, by itself or gated, leaves `PC` alone. -/
theorem pc_of_cycle_fault {s t : State} (h : cycle s = .next t) (ht : t.faultCause ≠ .noFault) : t.pc = s.pc := by
  obtain ⟨-, he⟩ | ⟨-, -, he⟩ | ⟨raw, hg, -, -, ⟨-, he⟩ | ⟨i, -, he⟩⟩ := cycle_cases s
  · cases he.symm.trans h
    rfl
  · cases he.symm.trans h
    rfl
  · exact pc_of_unknownWord_fault (gated_eq_false.1 hg).1 (he.symm.trans h) ht
  · exact pc_of_exec_fault (gated_eq_false.1 hg).1 (he.symm.trans h) ht

/-- Settles O11: an instruction faults where it stands or completes by the rule of its kind; a STEP adds the gate, the fetch
and the unknown word. -/
theorem programCounterRule : Obligations.ProgramCounterRule := by
  refine ⟨fun i s t hcause h => ⟨pc_of_exec_fault hcause h, fun ht => ?completes⟩, fun s t h hstop => ?step⟩
  case completes =>
    have hpc := (completes_of_noFault h ht).pc
    exact ⟨fun hi => by rwa [hi] at hpc, fun hi => by rwa [hi] at hpc⟩
  case step =>
    by_cases ht : t.faultCause = .noFault
    · have hgate : s.faultCause ≠ .noFault ∨ s.haltedForKey = true := by tauto
      cases (cycle_of_gated hgate).symm.trans h
      rfl
    · exact pc_of_cycle_fault h ht

end Sys2Proof.Machine

end

section
/-! SUPPORT. The word of every well-formed instruction decodes to it; then control flow (spec/40_flow.md): the effect of each
instruction on `PC` and the call stack, with its frame. A CALL followed by a RET is read off the effects of the two. -/

namespace Sys2Proof

/-- Every well-formed instruction's own word matches a row that builds it again. -/
theorem ownRow (i : Instr) : Laws.OwnRow.Statement i :=
  match i with
  | .sys nnn => Laws.OwnRow.sys nnn
  | .cls => Laws.OwnRow.cls
  | .ret => Laws.OwnRow.ret
  | .jp nnn => Laws.OwnRow.jp nnn
  | .call nnn => Laws.OwnRow.call nnn
  | .seByte x kk => Laws.OwnRow.seByte x kk
  | .sneByte x kk => Laws.OwnRow.sneByte x kk
  | .seReg x y => Laws.OwnRow.seReg x y
  | .ldByte x kk => Laws.OwnRow.ldByte x kk
  | .addByte x kk => Laws.OwnRow.addByte x kk
  | .ldReg x y => Laws.OwnRow.ldReg x y
  | .orReg x y => Laws.OwnRow.orReg x y
  | .andReg x y => Laws.OwnRow.andReg x y
  | .xorReg x y => Laws.OwnRow.xorReg x y
  | .addReg x y => Laws.OwnRow.addReg x y
  | .sub x y => Laws.OwnRow.sub x y
  | .shr x y => Laws.OwnRow.shr x y
  | .subn x y => Laws.OwnRow.subn x y
  | .shl x y => Laws.OwnRow.shl x y
  | .sneReg x y => Laws.OwnRow.sneReg x y
  | .ldI nnn => Laws.OwnRow.ldI nnn
  | .jpV0 nnn => Laws.OwnRow.jpV0 nnn
  | .rnd x kk => Laws.OwnRow.rnd x kk
  | .drw x y n => Laws.OwnRow.drw x y n
  | .skp x => Laws.OwnRow.skp x
  | .sknp x => Laws.OwnRow.sknp x
  | .ldVxDT x => Laws.OwnRow.ldVxDT x
  | .ldVxK x => Laws.OwnRow.ldVxK x
  | .ldDTVx x => Laws.OwnRow.ldDTVx x
  | .ldSTVx x => Laws.OwnRow.ldSTVx x
  | .addI x => Laws.OwnRow.addI x
  | .ldF x => Laws.OwnRow.ldF x
  | .ldB x => Laws.OwnRow.ldB x
  | .ldStore x => Laws.OwnRow.ldStore x
  | .ldLoad x => Laws.OwnRow.ldLoad x

/-- The word of a well-formed instruction decodes to it (R64, R66). -/
theorem decodeWord_encode (i : Instr) (h : i.wellFormed = true) : decodeWord (encode i) = .ok i :=
  decodeWord_eq_ok_iff.2 ((classify_eq_some_iff _ _).2 (ownRow i h))

end Sys2Proof

namespace Sys2Proof.Machine

/-- An instruction that raises a cause from the unchanged state faults with it (R171). -/
theorem FaultsWith.of_raise {i : Instr} {c : Cause} {s : State} (h : exec i s = raise c s) : FaultsWith i c s :=
  ⟨_, h, rfl, latch_frame s c⟩

/-- A part that reads as before after all need not be named by the frame. -/
theorem OnlyChanges.drop {c : Part → Prop} {q : Part} {s t : State} (h : OnlyChanges (fun p => c p ∨ p = q) s t)
    (hq : q.same s t) : OnlyChanges c s t := by
  intro p hp
  by_cases hpq : p = q
  · exact hpq ▸ hq
  · exact h p fun hc => hc.elim hp hpq

/-! ## SYS and the jumps (R100, R102, R108) -/

/-- Settles O21: every execution of SYS takes the fault. -/
theorem sysFaults : Obligations.SysFaults := by
  intro nnn s
  refine ⟨fun hcls hret => ?_, _, rfl, rfl, rfl, rfl, latch_frame s _⟩
  exact decodeWord_encode (.sys nnn) (Bool.and_eq_true_iff.2 ⟨bne_iff_ne.2 hcls, bne_iff_ne.2 hret⟩)

/-- Settles O23: the target is the address field, zero-extended. -/
theorem jpSetsPc : Obligations.JpSetsPc := fun nnn s =>
  ⟨decodeWord_encode (.jp nnn) rfl, _, rfl, addrWord_toNat nnn, setPc_frame s _⟩

/-- The sum of JP V0 fits in 16 bits, so that it does not wrap. -/
theorem jpV0_target_toNat (nnn : Addr) (b : Byte) : (addrWord nnn + byteWord b).toNat = nnn.toNat + b.toNat := by
  have := nnn.isLt
  have := b.isLt
  rw [BitVec.toNat_add, addrWord_toNat, byteWord, BitVec.toNat_setWidth]
  omega

/-- Settles O27: the target is a sum that stays below 65536. -/
theorem jpV0AddsV0 : Obligations.JpV0AddsV0 := fun nnn s =>
  ⟨decodeWord_encode (.jpV0 nnn) rfl, _, rfl, jpV0_target_toNat nnn (s.getV 0), setPc_frame s _⟩

/-! ## The skips (R104 to R107) -/

theorem skipIf_pc_of_true {s : State} {c : Bool} (h : c = true) : (s.skipIf c).pc = s.pc + 4 := by
  rw [skipIf_pc, if_pos h]

theorem skipIf_pc_of_false {s : State} {c : Bool} (h : c = false) : (s.skipIf c).pc = s.pc + 2 := by
  rw [skipIf_pc, h]
  rfl

/-- Settles O25: both end in `skipIf`, on opposite conditions. -/
theorem skipsOnByte : Obligations.SkipsOnByte := by
  intro x kk s
  refine ⟨decodeWord_encode (.seByte x kk) rfl, decodeWord_encode (.sneByte x kk) rfl, ?se, ?sne⟩
  case se =>
    exact ⟨_, rfl, fun h => skipIf_pc_of_true (beq_iff_eq.2 h), fun h => skipIf_pc_of_false (beq_eq_false_iff_ne.2 h),
      skipIf_frame s _⟩
  case sne =>
    exact ⟨_, rfl, fun h => skipIf_pc_of_true (bne_iff_ne.2 h), fun h => skipIf_pc_of_false (bne_eq_false_iff_eq.2 h),
      skipIf_frame s _⟩

/-- Settles O26: as for a byte; a register is equal to itself. -/
theorem skipsOnRegisters : Obligations.SkipsOnRegisters := by
  intro x y s
  refine ⟨decodeWord_encode (.seReg x y) rfl, decodeWord_encode (.sneReg x y) rfl, ?se, ?sne⟩
  case se =>
    have skips (h : s.getV x = s.getV y) : (s.skipIf (s.getV x == s.getV y)).pc = s.pc + 4 :=
      skipIf_pc_of_true (beq_iff_eq.2 h)
    exact ⟨_, rfl, skips, fun h => skipIf_pc_of_false (beq_eq_false_iff_ne.2 h),
      fun hxy => skips (congrArg s.getV hxy), skipIf_frame s _⟩
  case sne =>
    have goesOn (h : s.getV x = s.getV y) : (s.skipIf (s.getV x != s.getV y)).pc = s.pc + 2 :=
      skipIf_pc_of_false (bne_eq_false_iff_eq.2 h)
    exact ⟨_, rfl, fun h => skipIf_pc_of_true (bne_iff_ne.2 h), goesOn,
      fun hxy => goesOn (congrArg s.getV hxy), skipIf_frame s _⟩

/-! ## RET (R101) -/

theorem exec_ret_of_pop {s popped : State} {target : Word} (h : s.pop? = some (target, popped)) :
    exec .ret s = .next (popped.setPc target) := by
  simp only [exec, execRet, h]

theorem exec_ret_of_sp_eq_zero {s : State} (h : s.sp.val = 0) : exec .ret s = raise .stackUnderflow s := by
  obtain ⟨-, hp⟩ | ⟨hpos, -⟩ := pop?_cases s
  · simp only [exec, execRet, hp]
  · omega

/-- RET pops the slot below `SP` into `PC`. -/
theorem exec_ret_of_sp_pos {s : State} (h : 0 < s.sp.val) :
    ∃ t, exec .ret s = .next t ∧ t.pc = s.stack[s.sp.val - 1]'(by have := s.sp.isLt; omega) ∧
      t.sp.val = s.sp.val - 1 ∧ OnlyChanges (· ∈ [Part.pc, .sp]) s t := by
  obtain ⟨hzero, -⟩ | ⟨_, _, _, hp⟩ := pop?_cases s
  · omega
  · refine ⟨_, exec_ret_of_pop hp, rfl, rfl, ?_⟩
    exact ((pop?_frame hp).trans (setPc_frame _ _)).mono (by simp [or_comm])

/-- Settles O22, by the two ends of a pop. -/
theorem retPops : Obligations.RetPops := fun _ =>
  ⟨decodeWord_encode .ret rfl, exec_ret_of_sp_pos, fun h => .of_raise (exec_ret_of_sp_eq_zero h)⟩

/-! ## CALL (R103) -/

theorem exec_call_of_push (nnn : Addr) {s pushed : State} (h : s.push? (s.pc + 2) = some pushed) :
    exec (.call nnn) s = .next (pushed.setPc (addrWord nnn)) := by
  simp only [exec, execCall, h]

theorem exec_call_of_sp_eq_16 (nnn : Addr) {s : State} (h : s.sp.val = 16) :
    exec (.call nnn) s = raise .stackOverflow s := by
  obtain ⟨-, hp⟩ | ⟨hlt, -⟩ := push?_cases s (s.pc + 2)
  · simp only [exec, execCall, hp]
  · omega

/-- A push writes the slot at `SP`, and no other. -/
theorem push?_of_sp_lt {s : State} (h : s.sp.val < 16) (w : Word) :
    ∃ t, s.push? w = some t ∧ t.stack[s.sp.val] = w ∧ t.sp.val = s.sp.val + 1 ∧
      OnlyChanges (· ∈ [Part.slot ⟨s.sp.val, h⟩, .sp]) s t := by
  obtain ⟨hfull, -⟩ | ⟨_, t, hp, rfl⟩ := push?_cases s w
  · omega
  refine ⟨_, hp, Vector.getElem_set_self _, rfl, fun p hnot => ?_⟩
  cases p with
  | slot k =>
    have hne : s.sp.val ≠ k.val := fun e => hnot (by simp [e])
    exact Vector.getElem_set_ne h k.isLt hne
  | sp => simp at hnot
  | _ => rfl

/-- CALL pushes the address of the next word and jumps. -/
theorem exec_call_of_sp_lt (nnn : Addr) {s : State} (h : s.sp.val < 16) :
    ∃ t, exec (.call nnn) s = .next t ∧ t.stack[s.sp.val] = s.pc + 2 ∧ t.sp.val = s.sp.val + 1 ∧
      t.pc.toNat = nnn.toNat ∧ OnlyChanges (· ∈ [Part.slot ⟨s.sp.val, h⟩, .sp, .pc]) s t := by
  obtain ⟨pushed, hp, hslot, hsp, hframe⟩ := push?_of_sp_lt h (s.pc + 2)
  refine ⟨_, exec_call_of_push nnn hp, hslot, hsp, addrWord_toNat nnn, ?_⟩
  exact (hframe.trans (setPc_frame pushed _)).mono (by simp [or_assoc])

/-- RET right after CALL: the slot it pops is the one CALL wrote, so that `SP` is back and `PC` is at the word after the
CALL. -/
theorem exec_call_then_ret (nnn : Addr) {s : State} (h : s.sp.val < 16) :
    ∃ t u, exec (.call nnn) s = .next t ∧ exec .ret t = .next u ∧ u.pc = s.pc + 2 ∧
      OnlyChanges (· ∈ [Part.slot ⟨s.sp.val, h⟩, .pc]) s u := by
  obtain ⟨t, hcall, hslot, hspCall, -, hframeCall⟩ := exec_call_of_sp_lt nnn h
  obtain ⟨u, hret, hpc, hspRet, hframeRet⟩ := exec_ret_of_sp_pos (s := t) (by omega)
  have hpopped : t.sp.val - 1 = s.sp.val := by omega
  have hspBack : u.sp = s.sp := Fin.ext (hspRet.trans hpopped)
  simp only [hpopped, hslot] at hpc
  refine ⟨t, u, hcall, hret, hpc, OnlyChanges.drop (q := .sp) ?_ hspBack⟩
  exact (hframeCall.trans hframeRet).mono (by simp only [List.mem_cons, List.not_mem_nil, or_false]; tauto)

/-- Settles O24, from the effect of CALL alone and with a RET after it. -/
theorem callPushes : Obligations.CallPushes := fun nnn _ =>
  ⟨decodeWord_encode (.call nnn) rfl, exec_call_of_sp_lt nnn, exec_call_then_ret nnn,
    fun h => .of_raise (exec_call_of_sp_eq_16 nnn h)⟩

end Sys2Proof.Machine

end

section
/-! SUPPORT. Register load, ALU and random (spec/41_alu.md). All twelve end in one of two shapes: one register written, or a
result and then a flag (R121); each shape has one frame. RND writes one register after its random byte is used. -/

namespace Sys2Proof.Machine

/-! ## One register and `next` -/

theorem setV_advance_frame (s : State) (x : Nibble) (b : Byte) :
    OnlyChanges (· ∈ [Part.reg x, .pc]) s (s.setV x b).advance :=
  ((setV_frame s x b).trans (advance_frame _)).mono (by simp)

@[simp] theorem getV_setV_advance (s : State) (x : Nibble) (b : Byte) : (s.setV x b).advance.getV x = b :=
  getV_setV_self s x b

/-- Settles O28: the two loads differ in the byte written only. -/
theorem registerLoads : Obligations.RegisterLoads := fun x y kk s =>
  ⟨decodeWord_encode (.ldByte x kk) rfl, decodeWord_encode (.ldReg x y) rfl,
    ⟨_, rfl, getV_setV_advance s x _, rfl, setV_advance_frame s x _⟩,
    ⟨_, rfl, getV_setV_advance s x _, rfl, setV_advance_frame s x _⟩⟩

/-- Settles O29: each writes `V[x]` alone, and the byte written is read bit by bit, or as a sum. -/
theorem addByteAndBitwise : Obligations.AddByteAndBitwise := by
  intro x y kk s
  refine ⟨decodeWord_encode (.addByte x kk) rfl, decodeWord_encode (.orReg x y) rfl,
    decodeWord_encode (.andReg x y) rfl, decodeWord_encode (.xorReg x y) rfl,
    ⟨_, rfl, ?add, rfl, setV_advance_frame s x _⟩, ⟨_, rfl, fun b => ?or, rfl, setV_advance_frame s x _⟩,
    ⟨_, rfl, fun b => ?and, rfl, setV_advance_frame s x _⟩, ⟨_, rfl, fun b => ?xor, rfl, setV_advance_frame s x _⟩⟩
  case add => rw [getV_setV_advance, BitVec.toNat_add]
  case or => rw [getV_setV_advance, BitVec.getLsbD_or]
  case and => rw [getV_setV_advance, BitVec.getLsbD_and]
  case xor => rw [getV_setV_advance, BitVec.getLsbD_xor]

/-! ## A result, a flag and `next` (R120, R121) -/

theorem flagByte_decide_toNat (p : Prop) [Decidable p] : (flagByte (decide p)).toNat = if p then 1 else 0 := by
  by_cases h : p <;> simp [flagByte, h]

theorem carryFlag_toNat (a b : Byte) : (carryFlag a b).toNat = if 255 < a.toNat + b.toNat then 1 else 0 :=
  flagByte_decide_toNat _

theorem noBorrowFlag_toNat (a b : Byte) : (noBorrowFlag a b).toNat = if b.toNat ≤ a.toNat then 1 else 0 :=
  flagByte_decide_toNat _

/-- A difference modulo 256, the 256 added before the subtraction so that it stays a number. -/
theorem byte_sub_toNat (a b : Byte) : (a - b).toNat = (a.toNat + 256 - b.toNat) % 256 := by
  have := b.isLt
  rw [BitVec.toNat_sub]
  omega

theorem byte_shiftRight_one_toNat (a : Byte) : (a >>> 1).toNat = a.toNat / 2 := by
  rw [BitVec.toNat_ushiftRight, Nat.shiftRight_eq_div_pow, pow_one]

theorem byte_shiftLeft_one_toNat (a : Byte) : (a <<< 1).toNat = a.toNat * 2 % 256 := by
  rw [BitVec.toNat_shiftLeft, Nat.shiftLeft_eq, pow_one]

theorem setResultAndFlag_advance_frame (s : State) (x : Nibble) (result flag : Byte) :
    OnlyChanges (· ∈ [Part.reg x, .reg 0xF, .pc]) s (s.setResultAndFlag x result flag).advance :=
  ((setResultAndFlag_frame s x result flag).trans (advance_frame _)).mono (by simp [or_assoc])

/-- The effect of an instruction that writes a result and then a flag, both known as numbers: the flag is the one kept where
`x` is 0xF (R121, decision D11). -/
theorem exec_resultAndFlag {i : Instr} {s : State} {x : Nibble} {result flag : Byte} {m n : Nat}
    (h : exec i s = .next (s.setResultAndFlag x result flag).advance) (hm : result.toNat = m) (hn : flag.toNat = n) :
    ∃ t, exec i s = .next t ∧ (x ≠ 0xF → (t.getV x).toNat = m) ∧ (t.getV 0xF).toNat = n ∧ t.pc = s.pc + 2 ∧
      OnlyChanges (· ∈ [Part.reg x, .reg 0xF, .pc]) s t := by
  refine ⟨_, h, fun hx => ?result, ?flag, rfl, setResultAndFlag_advance_frame s x _ _⟩
  case result => rw [getV_advance, getV_setResultAndFlag, if_neg hx.symm, if_pos rfl, hm]
  case flag => rw [getV_advance, getV_setResultAndFlag, if_pos rfl, hn]

/-- Settles O30, by the sum with its carry and the difference with its not-borrow. -/
theorem addAndSubtract : Obligations.AddAndSubtract := fun x y _ =>
  ⟨decodeWord_encode (.addReg x y) rfl, decodeWord_encode (.sub x y) rfl,
    exec_resultAndFlag rfl (BitVec.toNat_add _ _) (carryFlag_toNat _ _),
    exec_resultAndFlag rfl (byte_sub_toNat _ _) (noBorrowFlag_toNat _ _)⟩

/-- Settles O31: the difference of SUB with the operands exchanged. -/
theorem subtractReversed : Obligations.SubtractReversed := fun x y _ =>
  ⟨decodeWord_encode (.subn x y) rfl, exec_resultAndFlag rfl (byte_sub_toNat _ _) (noBorrowFlag_toNat _ _)⟩

/-- Settles O32: a shift by one halves or doubles, and its flag is the bit that leaves. -/
theorem shifts : Obligations.Shifts := fun x y _ =>
  ⟨decodeWord_encode (.shr x y) rfl, decodeWord_encode (.shl x y) rfl,
    exec_resultAndFlag rfl (byte_shiftRight_one_toNat _) (lowBitFlag_toNat _),
    exec_resultAndFlag rfl (byte_shiftLeft_one_toNat _) (highBitFlag_toNat _)⟩

/-! ## RND (R133) -/

theorem randomInput_of_some {s : State} {r : Byte} (h : s.evRand = some r) : s.randomInput = r := by
  rw [State.randomInput, h, Option.getD_some]

/-- A byte the host stated is spent. -/
theorem useRandom_of_some {s : State} {r : Byte} (h : s.evRand = some r) : s.useRandom = s.dropRand := by
  simp only [State.useRandom, h, State.dropRand]

/-- Where the host stated none, one more free byte is taken. -/
theorem useRandom_of_none {s : State} (h : s.evRand = none) :
    s.useRandom = { s with randIndex := s.randIndex + 1 } := by
  simp only [State.useRandom, h]

theorem useRandom_frame_of_some {s : State} {r : Byte} (h : s.evRand = some r) :
    OnlyChanges (· = .evRand) s s.useRandom :=
  (useRandom_frame s).drop (by rw [useRandom_of_some h]; rfl)

theorem useRandom_frame_of_none {s : State} (h : s.evRand = none) : OnlyChanges (· = .randIndex) s s.useRandom :=
  ((useRandom_frame s).mono fun _ => Or.symm).drop (by rw [useRandom_of_none h]; rfl)

/-- RND changes its destination, `PC`, and what the use of the random byte changes. -/
theorem rnd_frame {s : State} {q : Part} (h : OnlyChanges (· = q) s s.useRandom) (x : Nibble) (b : Byte) :
    OnlyChanges (· ∈ [Part.reg x, .pc, q]) s (s.useRandom.setV x b).advance :=
  (h.trans (setV_advance_frame _ x b)).mono (by simp)

/-- The effect of RND, whatever random byte it runs on. -/
theorem exec_rnd (x : Nibble) (kk : Byte) (s : State) :
    exec (.rnd x kk) s = .next (s.useRandom.setV x (s.randomInput &&& kk)).advance := rfl

/-- Settles O33: the random byte is the host's, and using it empties the port. -/
theorem randomAndMask : Obligations.RandomAndMask := by
  intro x kk r s h
  refine ⟨decodeWord_encode (.rnd x kk) rfl, _, exec_rnd x kk s, ?value, ?port, ?pc,
    rnd_frame (useRandom_frame_of_some h) x _⟩
  case value => rw [getV_setV_advance, randomInput_of_some h]
  case port => rw [advance_evRand, setV_evRand, useRandom_of_some h, dropRand_evRand]
  case pc => rw [advance_pc, setV_pc, useRandom_pc]

/-- Settles O34: a bit the mask clears is 0 whatever the free byte is, and using it moves on to the next one. -/
theorem randomIsFree : Obligations.RandomIsFree := by
  intro x kk s h
  refine ⟨_, exec_rnd x kk s, getV_setV_advance _ x _, fun b hb => ?masked, ?another, ?pc,
    rnd_frame (useRandom_frame_of_none h) x _⟩
  case masked => rw [getV_setV_advance, BitVec.getLsbD_and, hb, Bool.and_false]
  case another =>
    rw [advance_randIndex, setV_randIndex, useRandom_of_none h]
    exact Nat.succ_ne_self _
  case pc => rw [advance_pc, setV_pc, useRandom_pc]

end Sys2Proof.Machine

end

section
/-! SUPPORT. Index register and memory (spec/42_index_memory.md). Every instruction here ends in `next`, LD B after a store and
the others after a new `I`; the two block copies are a store or a load of `x + 1` bytes, with `I` the base on both sides. -/

namespace Sys2Proof.Machine

/-! ## A new `I` and `next` (R140 to R142) -/

theorem setI_advance_frame (s : State) (w : Word) : OnlyChanges (· ∈ [Part.i, .pc]) s (s.setI w).advance :=
  ((setI_frame s w).trans (advance_frame _)).mono (by simp)

theorem byteWord_toNat (b : Byte) : (byteWord b).toNat = b.toNat :=
  BitVec.toNat_setWidth_of_le (by decide)

/-- ADD I wraps at 16 bits (decision D19). -/
theorem add_byteWord_toNat (w : Word) (b : Byte) : (w + byteWord b).toNat = (w.toNat + b.toNat) % 65536 := by
  rw [BitVec.toNat_add, byteWord_toNat]

theorem indexFlag_toNat (w : Word) (b : Byte) :
    (indexFlag w b).toNat = if 0x0FFF < w.toNat + b.toNat then 1 else 0 :=
  flagByte_decide_toNat _

/-- The glyph address of any byte fits in 16 bits, so that it does not wrap. -/
theorem glyphAddress_toNat (b : Byte) : (glyphAddress b).toNat = b.toNat * 5 := by
  have hmul : (glyphAddress b).toNat = b.toNat * 5 % 65536 := by
    rw [glyphAddress, BitVec.toNat_mul, byteWord_toNat]
    rfl
  have := b.isLt
  omega

/-- Settles O35: the address field, zero-extended, is the new `I`. -/
theorem loadIndex : Obligations.LoadIndex := fun nnn s =>
  ⟨decodeWord_encode (.ldI nnn) rfl, _, rfl, addrWord_toNat nnn, rfl, setI_advance_frame s _⟩

/-- Settles O36: both write `I`, and ADD I then writes `VF`, from the old `I` and the old `V[x]`. -/
theorem indexArithmetic : Obligations.IndexArithmetic := by
  intro x s
  refine ⟨decodeWord_encode (.addI x) rfl, decodeWord_encode (.ldF x) rfl, ?addI, ?ldF⟩
  case addI =>
    refine ⟨_, rfl, add_byteWord_toNat s.i (s.getV x), ?flag, rfl, ?frame⟩
    case flag => rw [getV_setV_advance, indexFlag_toNat]
    case frame => exact ((setI_frame s _).trans (setV_advance_frame _ 0xF _)).mono (by simp)
  case ldF => exact ⟨_, rfl, glyphAddress_toNat (s.getV x), rfl, setI_advance_frame s _⟩

/-! ## LD B (R143) -/

/-- LD B in range changes the three bytes at `I`, and `PC`. -/
theorem exec_ldB_frame {x : Nibble} {s t : State} (h : s.i.toNat + 3 ≤ 4096) (ht : exec (.ldB x) s = .next t) :
    OnlyChanges (· ∈ [Part.mem s.i.toNat, .mem (s.i.toNat + 1), .mem (s.i.toNat + 2), .pc]) s t := by
  cases (exec_ldB_of_le x h).symm.trans ht
  refine ((writes_frame s _ _).trans (advance_frame _)).mono ?_
  rintro p (⟨a, rfl, hlow, hhigh⟩ | rfl)
  · have hdigit : a = s.i.toNat ∨ a = s.i.toNat + 1 ∨ a = s.i.toNat + 2 := by
      simp only [decimalDigits, List.length_cons, List.length_nil] at hhigh
      omega
    simpa using hdigit
  · simp

theorem exec_ldB_of_gt (x : Nibble) {s : State} (h : 4096 < s.i.toNat + 3) :
    exec (.ldB x) s = raise .memoryAddressOutOfRange s := by
  have hstore := memWrite_eq_none (s := s) (bytes := decimalDigits (s.getV x)).2 ⟨List.cons_ne_nil _ _, h⟩
  simp only [exec, execLdB, hstore]

/-- Settles O37: in range by the digits stored and the frame of the store, out of range by the fault. -/
theorem decimalStore : Obligations.DecimalStore := by
  intro x s
  refine ⟨decodeWord_encode (.ldB x) rfl, fun h => ?inRange, fun h => .of_raise (exec_ldB_of_gt x h)⟩
  obtain ⟨t, ht, hpc, hhundreds, htens, hones⟩ := exec_ldB_digits x h
  exact ⟨t, ht, hhundreds, htens, hones, hpc, exec_ldB_frame h ht⟩

/-! ## The block copies (R144, R145) -/

/-- The registers stored from `V[first]` on are read back at the addresses of their own numbers. -/
theorem readByte_writes_blockRegs (s : State) {first n : Nat} {r : Nibble} (hlow : first ≤ r.toNat)
    (hhigh : r.toNat < first + n) :
    ({ s with mem := s.mem.writes first (s.blockRegs first n) } : State).readByte r.toNat = s.getV r := by
  rw [readByte_writes, dif_pos ⟨hlow, by rwa [blockRegs_length]⟩, blockRegs_getElem, Nat.add_sub_cancel' hlow,
    BitVec.ofNat_toNat, BitVec.setWidth_eq]

/-- The bytes loaded from address `first` on are found in the registers of their own numbers. -/
theorem getV_setRegs_readBytes (s : State) {first n : Nat} (hn : first + n ≤ 16) {r : Nibble} (hlow : first ≤ r.toNat)
    (hhigh : r.toNat < first + n) : (s.setRegs first (s.readBytes first n)).getV r = s.readByte r.toNat := by
  rw [getV_setRegs _ _ _ (by rwa [readBytes_length]), dif_pos ⟨hlow, by rwa [readBytes_length]⟩, readBytes_getElem,
    Nat.add_sub_cancel' hlow]

section

variable {x : Nibble} {s : State}

theorem blockOperand_of_gt (h : 15 < s.i.toNat + x.toNat) : s.blockOperand x = none := by
  obtain ⟨-, hnone⟩ | ⟨hle, -⟩ := blockOperand_cases s x
  · exact hnone
  · omega

theorem exec_ldStore_of_gt (h : 15 < s.i.toNat + x.toNat) :
    exec (.ldStore x) s = raise .registerIndexOutOfRange s := by
  simp only [exec, execLdStore, blockOperand_of_gt h]

theorem exec_ldLoad_of_gt (h : 15 < s.i.toNat + x.toNat) :
    exec (.ldLoad x) s = raise .registerIndexOutOfRange s := by
  simp only [exec, execLdLoad, blockOperand_of_gt h]

variable (h : s.i.toNat + x.toNat ≤ 15)
include h

theorem blockOperand_of_le : s.blockOperand x = some s.i.toNat := by
  obtain ⟨hgt, -⟩ | ⟨-, hsome⟩ := blockOperand_cases s x
  · omega
  · exact hsome

/-- Where a block copy leaves `I`, which does not wrap. -/
theorem blockEnd_toNat : (BitVec.ofNat 16 (s.i.toNat + x.toNat + 1)).toNat = s.i.toNat + x.toNat + 1 := by
  rw [BitVec.toNat_ofNat, Nat.mod_eq_of_lt (by omega)]

theorem exec_ldStore_of_le :
    exec (.ldStore x) s =
      .next (({ s with mem := s.mem.writes s.i.toNat (s.blockRegs s.i.toNat (x.toNat + 1)) } : State).setI
        (BitVec.ofNat 16 (s.i.toNat + x.toNat + 1))).advance := by
  simp only [exec, execLdStore, blockOperand_of_le h]

theorem exec_ldLoad_of_le :
    exec (.ldLoad x) s =
      .next ((s.setRegs s.i.toNat (s.readBytes s.i.toNat (x.toNat + 1))).setI
        (BitVec.ofNat 16 (s.i.toNat + x.toNat + 1))).advance := by
  simp only [exec, execLdLoad, blockOperand_of_le h]

end

/-- Settles O38: a store of the registers, then a new `I`. -/
theorem blockStore : Obligations.BlockStore := by
  intro x s
  refine ⟨decodeWord_encode (.ldStore x) rfl, fun h => ?inRange, fun h => .of_raise (exec_ldStore_of_gt h)⟩
  refine ⟨_, exec_ldStore_of_le h, fun r hlow hhigh => ?stored, blockEnd_toNat h, rfl, ?frame⟩
  case stored =>
    rw [readByte_advance, readByte_setI]
    exact readByte_writes_blockRegs s hlow (Nat.lt_succ_of_le hhigh)
  case frame =>
    refine ((writes_frame s _ _).trans (setI_advance_frame _ _)).mono fun p hp => hp.imp_left ?_
    rintro ⟨a, rfl, hlow, hhigh⟩
    rw [blockRegs_length] at hhigh
    exact ⟨a, rfl, hlow, Nat.le_of_lt_succ hhigh⟩

/-- Settles O39: a load of registers that stays inside the register file, then a new `I`. -/
theorem blockLoad : Obligations.BlockLoad := by
  intro x s
  refine ⟨decodeWord_encode (.ldLoad x) rfl, fun h => ?inRange, fun h => .of_raise (exec_ldLoad_of_gt h)⟩
  have hfile : s.i.toNat + (x.toNat + 1) ≤ 16 := Nat.succ_le_succ h
  refine ⟨_, exec_ldLoad_of_le h, fun r hlow hhigh => ?loaded, blockEnd_toNat h, ?pc, ?frame⟩
  case loaded =>
    rw [getV_advance, getV_setI]
    exact getV_setRegs_readBytes s hfile hlow (Nat.lt_succ_of_le hhigh)
  case pc => rw [advance_pc, setI_pc, setRegs_eq]
  case frame =>
    refine ((setRegs_frame s _ _ (by rwa [readBytes_length])).trans (setI_advance_frame _ _)).mono
      fun p hp => hp.imp_left ?_
    rintro ⟨r, rfl, hlow, hhigh⟩
    rw [readBytes_length] at hhigh
    exact ⟨r, rfl, hlow, Nat.le_of_lt_succ hhigh⟩

end Sys2Proof.Machine

end

section
/-! SUPPORT. Display (spec/43_display.md). The loops of R152 toggle the pixels under set bits one after the other; no pixel
comes twice where a sprite has at most 32 rows, and then a draw flips each covered pixel once. The instructions follow. -/

namespace Sys2Proof.Machine

/-! ## The pixels a sprite toggles, in the order of R152 -/

/-- One toggle of R152, with the collision of R153. -/
def togglePixel (acc : Grid × Bool) (p : Fin 32 × Fin 64) : Grid × Bool :=
  (acc.1.toggle p.1 p.2, acc.2 || acc.1.pixel p.1 p.2)

/-- The pixels under the set bits of one sprite byte. -/
def rowPixels (b : Byte) (x : Nat) (row : Fin 32) : List (Fin 32 × Fin 64) :=
  ((List.range 8).filter (spriteBit b)).map fun j => (row, wrapCol (x + j))

/-- The pixels under the set bits of a sprite, byte after byte. -/
def spritePixels (bytes : List Byte) (x y : Nat) : List (Fin 32 × Fin 64) :=
  match bytes with
  | [] => []
  | b :: rest => rowPixels b x (wrapRow y) ++ spritePixels rest x (y + 1)

/-- The pixels the statements call covered, for a sprite given as a list. -/
abbrev Covers (bytes : List Byte) (x y : Nat) (row : Fin 32) (col : Fin 64) : Prop :=
  SpriteCovers (fun k => bytes.getD k 0) bytes.length x y row col

theorem drawRow_eq_foldl (b : Byte) (x : Nat) (row : Fin 32) (acc : Grid × Bool) :
    drawRow b x row acc = (rowPixels b x row).foldl togglePixel acc := by
  rw [rowPixels, List.foldl_map, List.foldl_filter]
  rfl

theorem drawRows_eq_foldl (bytes : List Byte) (x y : Nat) (acc : Grid × Bool) :
    drawRows bytes x y acc = (spritePixels bytes x y).foldl togglePixel acc := by
  induction bytes generalizing y acc with
  | nil => rfl
  | cons b rest ih => rw [drawRows, ih, drawRow_eq_foldl, spritePixels, List.foldl_append]

theorem draw_eq_foldl (bytes : List Byte) (x y : Nat) (d : Grid) :
    draw bytes x y d = (spritePixels bytes x y).foldl togglePixel (d, false) :=
  drawRows_eq_foldl bytes x y (d, false)

theorem mem_rowPixels {b : Byte} {x : Nat} {row : Fin 32} {p : Fin 32 × Fin 64} :
    p ∈ rowPixels b x row ↔ ∃ j, j < 8 ∧ spriteBit b j = true ∧ row = p.1 ∧ wrapCol (x + j) = p.2 := by
  simp only [rowPixels, List.mem_map, List.mem_filter, List.mem_range, Prod.ext_iff, and_assoc]

/-- The pixels toggled are those under a set bit. -/
theorem mem_spritePixels {bytes : List Byte} {x y : Nat} {p : Fin 32 × Fin 64} :
    p ∈ spritePixels bytes x y ↔ Covers bytes x y p.1 p.2 := by
  induction bytes generalizing y with
  | nil => simp [spritePixels, Covers, SpriteCovers]
  | cons b rest ih =>
    have hfirst : p ∈ rowPixels b x (wrapRow y) ↔
        ∃ j, j < 8 ∧ b.getLsbD (7 - j) = true ∧ y % 32 = p.1.val ∧ (x + j) % 64 = p.2.val := by
      simp only [mem_rowPixels, Fin.ext_iff, wrapRow, wrapCol, spriteBit]
    simp only [spritePixels, List.mem_append, hfirst, ih, Covers, SpriteCovers, exists_and_left, List.length_cons,
      Nat.exists_lt_succ_left, List.getD_cons_zero, List.getD_cons_succ, Nat.add_zero, Nat.add_right_comm y 1,
      Nat.add_assoc]

/-- The eight columns of a sprite row differ, also where they wrap. -/
theorem rowPixels_nodup (b : Byte) (x : Nat) (row : Fin 32) : (rowPixels b x row).Nodup := by
  refine List.Nodup.map_on (fun j hj k hk h => ?_) (List.nodup_range.filter _)
  have hj8 : j < 8 := List.mem_range.1 (List.mem_of_mem_filter hj)
  have hk8 : k < 8 := List.mem_range.1 (List.mem_of_mem_filter hk)
  have hcol : (x + j) % 64 = (x + k) % 64 := congrArg (fun p => p.2.val) h
  omega

/-- Up to 32 rows differ, also where they wrap, so that no pixel is toggled twice. -/
theorem spritePixels_nodup {bytes : List Byte} (h : bytes.length ≤ 32) (x y : Nat) : (spritePixels bytes x y).Nodup := by
  induction bytes generalizing y with
  | nil => exact List.nodup_nil
  | cons b rest ih =>
    rw [List.length_cons] at h
    refine (rowPixels_nodup b x _).append (ih (by omega) (y + 1)) fun p hfirst hrest => ?_
    obtain ⟨-, -, -, hrow, -⟩ := mem_rowPixels.1 hfirst
    obtain ⟨k, -, hk, -, -, hrow', -⟩ := mem_spritePixels.1 hrest
    have : y % 32 = p.1.val := congrArg Fin.val hrow
    omega

/-! ## Toggling pixels that differ -/

theorem pixel_foldl_togglePixel {l : List (Fin 32 × Fin 64)} (h : l.Nodup) (acc : Grid × Bool) (p : Fin 32 × Fin 64) :
    (l.foldl togglePixel acc).1.pixel p.1 p.2 = (decide (p ∈ l) ^^ acc.1.pixel p.1 p.2) := by
  induction l generalizing acc with
  | nil => simp
  | cons q rest ih =>
    obtain ⟨hq, hrest⟩ := List.nodup_cons.1 h
    rw [List.foldl_cons, ih hrest, togglePixel, pixel_toggle]
    by_cases hqp : q = p
    · subst hqp
      simp [hq]
    · have hne : ¬ (q.1 = p.1 ∧ q.2 = p.2) := fun e => hqp (Prod.ext e.1 e.2)
      simp [hne, Ne.symm hqp]

theorem collided_foldl_togglePixel {l : List (Fin 32 × Fin 64)} (h : l.Nodup) (acc : Grid × Bool) :
    (l.foldl togglePixel acc).2 = true ↔ acc.2 = true ∨ ∃ p ∈ l, acc.1.pixel p.1 p.2 = true := by
  induction l generalizing acc with
  | nil => simp
  | cons q rest ih =>
    obtain ⟨hq, hrest⟩ := List.nodup_cons.1 h
    have hkept (p) (hp : p ∈ rest) : (togglePixel acc q).1.pixel p.1 p.2 = acc.1.pixel p.1 p.2 := by
      have hne : ¬ (q.1 = p.1 ∧ q.2 = p.2) := fun e => hq (Prod.ext e.1 e.2 ▸ hp)
      rw [togglePixel, pixel_toggle, if_neg hne]
    have hlater : (∃ p ∈ rest, (togglePixel acc q).1.pixel p.1 p.2 = true) ↔ ∃ p ∈ rest, acc.1.pixel p.1 p.2 = true :=
      exists_congr fun p => and_congr_right fun hp => by rw [hkept p hp]
    rw [List.foldl_cons, ih hrest, hlater, togglePixel, Bool.or_eq_true, or_assoc, List.exists_mem_cons_iff]

/-! ## A draw of at most 32 rows -/

section

variable {bytes : List Byte} (h : bytes.length ≤ 32) (x y : Nat) (d : Grid)
include h

theorem pixel_draw (p : Fin 32 × Fin 64) :
    (draw bytes x y d).1.pixel p.1 p.2 = (decide (p ∈ spritePixels bytes x y) ^^ d.pixel p.1 p.2) := by
  rw [draw_eq_foldl, pixel_foldl_togglePixel (spritePixels_nodup h x y)]

theorem pixel_draw_ne_iff (row : Fin 32) (col : Fin 64) :
    (draw bytes x y d).1.pixel row col ≠ d.pixel row col ↔
      Covers bytes x y row col := by
  rw [← mem_spritePixels (p := (row, col)), pixel_draw h x y d (row, col)]
  by_cases hp : (row, col) ∈ spritePixels bytes x y <;> simp [hp]

/-- A pixel collides where it is covered and was set before the draw: no earlier toggle of this draw has changed it. -/
theorem collided_draw_iff :
    (draw bytes x y d).2 = true ↔ ∃ row col,
      Covers bytes x y row col ∧ d.pixel row col = true := by
  rw [draw_eq_foldl, collided_foldl_togglePixel (spritePixels_nodup h x y)]
  simp [mem_spritePixels]

theorem draw_draw : (draw bytes x y (draw bytes x y d).1).1 = d := by
  refine grid_ext fun row col => ?_
  rw [pixel_draw h x y _ (row, col), pixel_draw h x y d (row, col), ← Bool.xor_assoc, Bool.xor_self, Bool.false_xor]

end

/-- Settles O44, by the pixels of a clear picture and of a draw. -/
theorem drawFlipsCoveredPixels : Obligations.DrawFlipsCoveredPixels :=
  ⟨pixel_clear, fun _ x y d row col h => pixel_draw_ne_iff h x y d row col⟩

/-- Settles O45: a set pixel goes to unset exactly when it is covered. -/
theorem collisionIsSetToUnset : Obligations.CollisionIsSetToUnset := by
  intro bytes x y d h
  rw [collided_draw_iff h]
  refine exists_congr fun row => exists_congr fun col => ?_
  rw [← pixel_draw_ne_iff h x y d, and_comm]
  refine and_congr_right fun hset => ?_
  rw [hset, Bool.eq_false_iff]

/-! ## The same sprite twice (R155) -/

theorem exists_spriteBit_iff (b : Byte) : (∃ j, j < 8 ∧ spriteBit b j = true) ↔ b ≠ 0 := by
  constructor
  · rintro ⟨j, -, hj⟩ rfl
    simp [spriteBit] at hj
  · intro hb
    by_contra hnone
    refine hb (BitVec.eq_of_getLsbD_eq fun i hi => ?_)
    have hbit : ¬ spriteBit b (7 - i) = true := fun hset => hnone ⟨7 - i, by omega, hset⟩
    rw [spriteBit, Nat.sub_sub_self (by omega)] at hbit
    simpa using hbit

/-- Every set bit of a sprite falls on some pixel, as both axes wrap. -/
theorem exists_spriteCovers_iff (byteAt : Nat → Byte) (n x y : Nat) :
    (∃ row col, SpriteCovers byteAt n x y row col) ↔ ∃ k, k < n ∧ byteAt k ≠ 0 := by
  constructor
  · rintro ⟨row, col, k, j, hk, hj, hbit, -, -⟩
    exact ⟨k, hk, (exists_spriteBit_iff _).1 ⟨j, hj, hbit⟩⟩
  · rintro ⟨k, hk, hne⟩
    obtain ⟨j, hj, hbit⟩ := (exists_spriteBit_iff _).2 hne
    exact ⟨wrapRow (y + k), wrapCol (x + j), k, j, hk, hj, hbit, rfl, rfl⟩

theorem exists_covers_iff (bytes : List Byte) (x y : Nat) :
    (∃ row col, Covers bytes x y row col) ↔ ∃ b ∈ bytes, b ≠ 0 := by
  rw [exists_spriteCovers_iff, List.exists_mem_iff_getElem]
  refine exists_congr fun k => ?_
  rw [← exists_prop]
  exact exists_congr fun hk => by rw [List.getD_eq_getElem _ _ hk]

/-- Settles O46: two flips cancel; in an empty region the first draw sets every covered pixel, so that the second collides
exactly when there is one. -/
theorem drawTwiceRestores : Obligations.DrawTwiceRestores := by
  intro bytes x y d h
  refine ⟨draw_draw h x y d, fun hempty => ⟨?first, ?second⟩⟩
  case first =>
    refine Bool.eq_false_iff.2 fun hcollided => ?_
    obtain ⟨row, col, hcovers, hset⟩ := (collided_draw_iff h x y d).1 hcollided
    exact Bool.false_ne_true ((hempty row col hcovers).symm.trans hset)
  case second =>
    have hset (row col) (hcovers : Covers bytes x y row col) :
        (draw bytes x y d).1.pixel row col = true := by
      have hflip := (pixel_draw_ne_iff h x y d row col).2 hcovers
      rwa [hempty row col hcovers, Bool.ne_false_iff] at hflip
    rw [collided_draw_iff h, ← exists_covers_iff bytes x y]
    exact exists_congr fun row => exists_congr fun col => and_iff_left_of_imp (hset row col)

/-! ## CLS and DRW (R150, R151) -/

/-- Settles O42: CLS shows the clear picture. -/
theorem clsClears : Obligations.ClsClears := fun s =>
  ⟨decodeWord_encode .cls rfl, _, rfl, pixel_clear, rfl, rfl,
    ((show_frame s _).trans (advance_frame _)).mono (by simp [or_assoc])⟩

theorem spriteCovers_congr {f g : Nat → Byte} {n : Nat} (h : ∀ k < n, f k = g k) (x y : Nat) (row : Fin 32)
    (col : Fin 64) : SpriteCovers f n x y row col ↔ SpriteCovers g n x y row col :=
  exists_congr fun k => exists_congr fun _ => and_congr_right fun hk => by rw [h k hk]

/-- The bytes DRW draws are those at `I`. -/
theorem covers_readBytes (s : State) (a n x y : Nat) (row : Fin 32) (col : Fin 64) :
    Covers (s.readBytes a n) x y row col ↔
      SpriteCovers (fun k => s.readByte (a + k)) n x y row col := by
  rw [Covers, readBytes_length]
  refine spriteCovers_congr (fun k hk => ?_) x y row col
  have hlen : k < (s.readBytes a n).length := by rwa [readBytes_length]
  rw [List.getD_eq_getElem _ _ hlen, readBytes_getElem]

theorem exec_drw_of_le (x y : Nibble) {n : Nibble} {s : State} (h : n = 0 ∨ s.i.toNat + n.toNat ≤ 4096) :
    exec (.drw x y n) s =
      let drawn := draw (s.readBytes s.i.toNat n.toNat) (s.getV x).toNat (s.getV y).toNat s.disp
      .next ((s.show drawn.1).setV 0xF (flagByte drawn.2)).advance := by
  obtain ⟨hn, hgt, -⟩ | ⟨-, hbytes⟩ := spriteOperand_cases s n
  · exact absurd h (not_or.2 ⟨hn, Nat.not_le.2 hgt⟩)
  · simp only [exec, execDrw, hbytes]

theorem exec_drw_of_gt (x y : Nibble) {n : Nibble} {s : State} (hn : n ≠ 0) (h : 4096 < s.i.toNat + n.toNat) :
    exec (.drw x y n) s = raise .memoryAddressOutOfRange s := by
  obtain ⟨-, -, hnone⟩ | ⟨hle, -⟩ := spriteOperand_cases s n
  · simp only [exec, execDrw, hnone]
  · exact absurd hle (not_or.2 ⟨hn, Nat.not_le.2 h⟩)

/-- Settles O43: in range a draw of the bytes at `I`, with its collision in `VF`; out of range the fault. -/
theorem drwDraws : Obligations.DrwDraws := by
  intro x y n s covers
  refine ⟨decodeWord_encode (.drw x y n) rfl, fun h => ?inRange, fun hn h => .of_raise (exec_drw_of_gt x y hn h)⟩
  have hlen : (s.readBytes s.i.toNat n.toNat).length ≤ 32 := by
    have := n.isLt
    rw [readBytes_length]
    omega
  have hcovers := covers_readBytes s s.i.toNat n.toNat (s.getV x).toNat (s.getV y).toNat
  have hcollided := collided_draw_iff hlen (s.getV x).toNat (s.getV y).toNat s.disp
  simp only [hcovers] at hcollided
  refine ⟨_, exec_drw_of_le x y h, fun row col => ?flips, fun hset => ?collision, fun hset => ?noCollision, rfl,
    rfl, ?frame⟩
  case flips => exact (pixel_draw_ne_iff hlen _ _ _ row col).trans (hcovers row col)
  case collision => rw [getV_setV_advance, hcollided.2 hset]; rfl
  case noCollision => rw [getV_setV_advance, Bool.eq_false_iff.2 (mt hcollided.1 hset)]; rfl
  case frame => exact ((show_frame s _).trans (setV_advance_frame _ 0xF _)).mono (by simp [or_assoc, or_left_comm])

end Sys2Proof.Machine

end

section
/-! SUPPORT. Timers and keys (spec/44_timer_key.md): the timer loads, the key skips, and the key wait with the events that
reach it (spec/60_exceptions.md R184 to R186). -/

namespace Sys2Proof.Machine

/-! ## The timer loads (R160, R161, R162) -/

/-- Settles O47: each load writes one register or one timer, then `next`. -/
theorem timerLoads : Obligations.TimerLoads := fun x s =>
  ⟨decodeWord_encode (.ldVxDT x) rfl, decodeWord_encode (.ldDTVx x) rfl, decodeWord_encode (.ldSTVx x) rfl,
    ⟨_, rfl, getV_setV_advance s x _, rfl, setV_advance_frame s x _⟩,
    ⟨_, rfl, rfl, rfl, ((setDt_frame s _).trans (advance_frame _)).mono (by simp)⟩,
    ⟨_, rfl, rfl, rfl, rfl, ((setSt_frame s _).trans (advance_frame _)).mono (by simp)⟩⟩

/-! ## SKP and SKNP (R163, R164) -/

section

variable {s : State} {x : Nibble}

theorem keyOperand_of_toNat_eq {k : Nibble} (h : (s.getV x).toNat = k.toNat) : s.keyOperand x = some k := by
  obtain ⟨hgt, -⟩ | ⟨j, hj, hval⟩ := keyOperand_cases s x
  · have := k.isLt
    omega
  · rw [hj, BitVec.eq_of_toNat_eq (hval.trans h)]

theorem keyOperand_of_gt (h : 15 < (s.getV x).toNat) : s.keyOperand x = none := by
  obtain ⟨-, hnone⟩ | ⟨k, -, hval⟩ := keyOperand_cases s x
  · exact hnone
  · have := k.isLt
    omega

theorem exec_skp_of_key {k : Nibble} (h : (s.getV x).toNat = k.toNat) :
    exec (.skp x) s = .next (s.skipIf (s.keyDown k)) := by
  simp only [exec, execSkp, keyOperand_of_toNat_eq h]

theorem exec_sknp_of_key {k : Nibble} (h : (s.getV x).toNat = k.toNat) :
    exec (.sknp x) s = .next (s.skipIf (!s.keyDown k)) := by
  simp only [exec, execSknp, keyOperand_of_toNat_eq h]

theorem exec_skp_of_gt (h : 15 < (s.getV x).toNat) : exec (.skp x) s = raise .keyIndexOutOfRange s := by
  simp only [exec, execSkp, keyOperand_of_gt h]

theorem exec_sknp_of_gt (h : 15 < (s.getV x).toNat) : exec (.sknp x) s = raise .keyIndexOutOfRange s := by
  simp only [exec, execSknp, keyOperand_of_gt h]

end

/-- Settles O48: both end in `skipIf`, on the level of the key and on its negation; above 15 there is no key to test. -/
theorem keySkips : Obligations.KeySkips := by
  intro x s
  refine ⟨decodeWord_encode (.skp x) rfl, decodeWord_encode (.sknp x) rfl, fun k hk => ⟨?skp, ?sknp⟩,
    fun h => ⟨.of_raise (exec_skp_of_gt h), .of_raise (exec_sknp_of_gt h)⟩⟩
  case skp => exact ⟨_, exec_skp_of_key hk, skipIf_pc_of_true, skipIf_pc_of_false, skipIf_frame s _⟩
  case sknp =>
    exact ⟨_, exec_sknp_of_key hk, fun h => skipIf_pc_of_true (congrArg not h),
      fun h => skipIf_pc_of_false (congrArg not h), skipIf_frame s _⟩

/-! ## The key wait (R165, R184, R185) -/

theorem countDown_toNat (b : Byte) : (countDown b).toNat = b.toNat - 1 := by
  unfold countDown
  split
  · next h =>
    rw [h]
    rfl
  · next h =>
    have hpos : b.toNat ≠ 0 := fun h0 => h (BitVec.eq_of_toNat_eq h0)
    have := b.isLt
    rw [byte_sub_toNat, show (1 : Byte).toNat = 1 from rfl]
    omega

theorem setHalted_frame (s : State) (b : Bool) : OnlyChanges (· = .halted) s { s with haltedForKey := b } := by
  intro p hp
  cases p with
  | halted => exact absurd rfl hp
  | _ => rfl

theorem endWait_frame (s : State) (k : Nibble) :
    OnlyChanges (fun p => p = .reg s.pendingKeyRegister ∨ p = .halted) s (s.endWait k) :=
  (setV_frame s _ _).trans (setHalted_frame _ false)

theorem getV_endWait_pending_toNat (s : State) (k : Nibble) :
    ((s.endWait k).getV s.pendingKeyRegister).toNat = k.toNat := by
  have hread : (s.endWait k).getV s.pendingKeyRegister = k.setWidth 8 := getV_setV_self s _ _
  rw [hread, BitVec.toNat_setWidth_of_le (by decide)]

theorem keyPress_of_halted {s : State} (h : s.haltedForKey = true) (k : Nibble) :
    keyPress k s = (s.setKey k true).endWait k := if_pos h

/-- KEY_PRESS during a key wait, of any key, held or not (R185). -/
theorem keyPress_ends_wait {s : State} (h : s.haltedForKey = true) (k : Nibble) :
    ((keyPress k s).getV s.pendingKeyRegister).toNat = k.toNat ∧ (keyPress k s).haltedForKey = false ∧
      (keyPress k s).pc = s.pc ∧
      OnlyChanges (· ∈ [Part.reg s.pendingKeyRegister, .key k, .halted]) s (keyPress k s) := by
  rw [keyPress_of_halted h]
  refine ⟨getV_endWait_pending_toNat (s.setKey k true) k, rfl, rfl, ?_⟩
  exact ((setKey_frame s k true).trans (endWait_frame _ k)).mono (by simp [or_left_comm])

/-- Settles O49: the wait closes the gate of the STEP; of the events, only KEY_PRESS writes `halted_for_key`. -/
theorem keyWait : Obligations.KeyWait := fun x s =>
  ⟨decodeWord_encode (.ldVxK x) rfl, (s.waitForKey x).advance, rfl, rfl, rfl, rfl,
    ((waitForKey_frame s x).trans (advance_frame _)).mono (by simp [or_assoc]),
    cycle_of_gated (.inr rfl), rfl, countDown_toNat _, fun _ => rfl, keyPress_ends_wait rfl⟩

end Sys2Proof.Machine

end


section
/-! SUPPORT. Exceptions (spec/60_exceptions.md): the codes of the causes, the precise fault of every arm of a STEP, and the
events TICK, KEY_PRESS and KEY_RELEASE with their frames. -/

namespace Sys2Proof.Machine

/-! ## A fault is precise (R171, R173) -/

/-- What R171 asks of a STEP from `s` that latches a fault in `t`: the latch alone changes, with the counted pulse of an unknown
word. -/
def PreciselyFaulted (s t : State) : Prop :=
  OnlyChanges (· ∈ [Part.fault, .unknownPulses]) s t ∧
    (t.unknownOpcodePulses ≠ s.unknownOpcodePulses ↔ t.faultCause = .unknownOpcode)

/-- The causes an instruction raises are not that of an unknown word (R170). -/
theorem RaisedBy.ne_unknownOpcode {c : Cause} {i : Instr} (h : RaisedBy c i) : c ≠ .unknownOpcode := by
  rintro rfl
  exact h

/-- A fault other than that of an unknown word is latched without a pulse. -/
theorem PreciselyFaulted.of_latch {s : State} {c : Cause} (hc : c ≠ .unknownOpcode) :
    PreciselyFaulted s { s with faultCause := c } :=
  ⟨(latch_frame s c).mono (by simp), iff_of_false (fun hpulse => hpulse rfl) hc⟩

section

variable {s t : State} (hcause : s.faultCause = .noFault) (ht : t.faultCause ≠ .noFault)
include hcause ht

/-- An unknown word faults under `HALT` only, and pulses there. -/
theorem preciselyFaulted_of_unknownWord (h : unknownWord s = .next t) : PreciselyFaulted s t := by
  obtain ⟨u, hu, hpulse, hhalt, hskip⟩ := unknownWord_effect s
  cases hu.symm.trans h
  cases hp : s.unknownPolicy with
  | halt =>
    obtain ⟨hlatch, hframe⟩ := hhalt hp
    exact ⟨hframe, iff_of_true (by omega) hlatch⟩
  | skip =>
    obtain ⟨-, hframe⟩ := hskip hp
    have hkept : t.faultCause = s.faultCause := hframe .fault (by simp)
    exact absurd (hkept.trans hcause) ht

/-- An instruction that latches a fault has not completed. -/
theorem preciselyFaulted_of_exec {i : Instr} (h : exec i s = .next t) : PreciselyFaulted s t := by
  obtain ⟨c, hc, rfl⟩ | hdone := exec_next_cases h
  · exact .of_latch hc.ne_unknownOpcode
  · exact absurd (hdone.faultCause.trans hcause) ht

end

/-- Settles O50, arm by arm of the STEP; a gated STEP latches nothing. -/
theorem faultsArePrecise : Obligations.FaultsArePrecise := by
  intro s t hcause h ht
  obtain ⟨-, he⟩ | ⟨-, -, he⟩ | ⟨raw, -, -, -, ⟨-, he⟩ | ⟨i, -, he⟩⟩ := cycle_cases s
  · cases he.symm.trans h
    exact absurd hcause ht
  · cases he.symm.trans h
    exact PreciselyFaulted.of_latch (by decide)
  · exact preciselyFaulted_of_unknownWord hcause ht (he.symm.trans h)
  · exact preciselyFaulted_of_exec hcause ht (he.symm.trans h)

/-! ## The codes (R170) -/

/-- The cause a code stands for, R170's table read backwards. -/
def Cause.ofCode (code : BitVec 3) : Cause :=
  match code.toNat with
  | 1 => .unknownOpcode
  | 2 => .stackOverflow
  | 3 => .stackUnderflow
  | 4 => .memoryAddressOutOfRange
  | 5 => .registerIndexOutOfRange
  | 6 => .keyIndexOutOfRange
  | 7 => .unsupportedSys
  | _ => .noFault

theorem Cause.ofCode_code : Function.LeftInverse Cause.ofCode Cause.code := by
  intro c
  cases c <;> rfl

/-- Settles O20: the numbers cause by cause; a code can be read back, so that no two causes share one. -/
theorem faultCodes : Obligations.FaultCodes := by
  refine ⟨fun s => ?_, fun s t => Cause.ofCode_code.injective.eq_iff⟩
  unfold State.faultOut
  cases s.faultCause <;> rfl

/-! ## The events (R184, R185, R186) -/

theorem tick_frame (s : State) : OnlyChanges (· ∈ [Part.dt, .st]) s (tick s) := by
  have hframe := (setDt_frame s (countDown s.dt)).trans (setSt_frame _ (countDown s.st))
  exact hframe.mono (by simp)

/-- Settles O12: both timers count down, and TICK writes no other part. -/
theorem tickCountsDown : Obligations.TickCountsDown := fun s =>
  ⟨countDown_toNat s.dt, countDown_toNat s.st, tick_frame s⟩

@[simp] theorem keyDown_setKey_self (s : State) (k : Nibble) (b : Bool) : (s.setKey k b).keyDown k = b := by
  simp [keyDown_setKey]

theorem keyPress_of_not_halted {s : State} (h : s.haltedForKey = false) (k : Nibble) : keyPress k s = s.setKey k true := by
  simp [keyPress, h]

/-- The end of a key wait leaves the keypad alone. -/
theorem keyDown_endWait (s : State) (k j : Nibble) : (s.endWait k).keyDown j = s.keyDown j := rfl

/-- KEY_PRESS sets its key, in a key wait or not. -/
theorem keyDown_keyPress_self (s : State) (k : Nibble) : (keyPress k s).keyDown k = true := by
  cases h : s.haltedForKey with
  | false => rw [keyPress_of_not_halted h, keyDown_setKey_self]
  | true => rw [keyPress_of_halted h, keyDown_endWait, keyDown_setKey_self]

/-- Settles O13, by the two ends of `keyPress`. -/
theorem keyPressEvent : Obligations.KeyPressEvent := by
  refine fun k s => ⟨keyDown_keyPress_self s k, fun h => ?outside, fun h => ?waiting⟩
  case outside => exact keyPress_of_not_halted h k ▸ setKey_frame s k true
  case waiting =>
    obtain ⟨hreg, hend, -, hframe⟩ := keyPress_ends_wait h k
    exact ⟨hreg, hend, hframe.mono (by simp [or_left_comm])⟩

/-- Settles O14: KEY_RELEASE is `setKey`, with no look at the key wait. -/
theorem keyReleaseEvent : Obligations.KeyReleaseEvent := fun k s =>
  ⟨keyDown_setKey_self s k false, setKey_frame s k false⟩

end Sys2Proof.Machine

end

section
/-! SUPPORT. Reset and the end of a run (spec/70_reset_and_hazards.md): the launch memory of an image and of a program, the
RESET event, and the STEP of an ended program. -/

namespace Sys2Proof.Machine

/-! ## The launch memory (R200, R202) -/

/-- The range of `MEM_INIT`, pair by pair (R4). -/
theorem imageInRange_iff (image : List Host.Cell) :
    imageInRange image = true ↔ ∀ c ∈ image, 0x050 ≤ c.1 ∧ c.1 < 4096 := by
  simp [imageInRange]

/-- Of the pairs at one address the last is the one loaded (notes/assumptions/5.md). -/
theorem byte?_loadImage_last (before : List Host.Cell) {after : List Host.Cell} {a : Nat} (b : Byte)
    (h : ∀ c ∈ after, c.1 ≠ a) : (loadImage (before ++ (a, b) :: after)).byte? a = some b := by
  have hafter : after.reverse.find? (fun c => c.1 == a) = none := by simpa using h
  simp [byte?_loadImage, hafter]

/-- An address the image does not name holds what empty memory holds there. -/
theorem byte?_loadImage_of_not_named {image : List Host.Cell} {a : Nat} (h : ∀ c ∈ image, c.1 ≠ a) :
    (loadImage image).byte? a = Memory.byte? [] a := by
  have hnone : image.reverse.find? (fun c => c.1 == a) = none := by simpa using h
  rw [byte?_loadImage, hnone]
  rfl

/-- Loading consecutive pairs one by one is one store (R44). -/
theorem foldl_write_mapIdx (m : Memory) (a : Nat) (bytes : List Byte) :
    (bytes.mapIdx fun k b => (a + k, b)).foldl (fun m c => Memory.write m c.1 c.2) m = m.writes a bytes := by
  induction bytes generalizing m a with
  | nil => rfl
  | cons b rest ih => simpa [Memory.writes, Nat.add_assoc, Nat.add_comm 1] using ih (m.write a b) (a + 1)

/-- A program image is one store from 0x200 on into empty memory. -/
theorem loadImage_programImage (program : List Byte) :
    loadImage (programImage program) = Memory.writes [] 0x200 program :=
  foldl_write_mapIdx [] 0x200 program

/-- A program of at most 3584 bytes lies inside the range of `MEM_INIT`. -/
theorem programImage_inRange {program : List Byte} (h : program.length ≤ 3584) :
    ∀ c ∈ programImage program, 0x050 ≤ c.1 ∧ c.1 < 4096 := by
  intro c hc
  obtain ⟨k, hk, rfl⟩ := List.mem_mapIdx.1 hc
  show 0x050 ≤ 0x200 + k ∧ 0x200 + k < 4096
  omega

/-! ## The RESET event -/

theorem perform_reset_of_inRange {image : List Host.Cell} (h : ∀ c ∈ image, 0x050 ≤ c.1 ∧ c.1 < 4096) (s : State) :
    perform (.reset image) s = .next (afterReset image s) :=
  if_pos ((imageInRange_iff image).2 h)

theorem readByte_of_byte? {s : State} {a : Nat} {b : Byte} (h : s.mem.byte? a = some b) : s.readByte a = b := by
  rw [State.readByte, h, Option.getD_some]

/-- Settles O17: RESET is `State.reset` but for the launch memory and the fields the model keeps; a program is loaded by one
store. -/
theorem resetEvent : Obligations.ResetEvent := by
  refine ⟨fun image s hrange => ?image, fun program s hlen => ?program⟩
  case image =>
    obtain ⟨hpc, hsp, hstack, hregs, hi, hdt, hst, hkeys, hhalted, hpending, hdisp, hfault, -, -⟩ := resetValues
    refine ⟨_, perform_reset_of_inRange hrange s, hpc, hsp, hi, hdt, hst, hregs, hstack, hkeys, hhalted, hpending, hdisp,
      hfault, fun a => ?font, fun before after a b himage hlast => ?named, fun a ha hnot => ?unstated,
      rfl, rfl, rfl, rfl, rfl, rfl, rfl⟩
    case font =>
      exact byte?_loadImage_of_not_named fun c hc => Nat.ne_of_gt (Nat.lt_of_lt_of_le a.isLt (hrange c hc).1)
    case named =>
      subst himage
      exact readByte_of_byte? (byte?_loadImage_last before b hlast)
    case unstated => exact (byte?_loadImage_of_not_named hnot).trans (byte?_nil_of_le ha)
  case program =>
    have hmem : (afterReset (programImage program) s).mem = Memory.writes [] 0x200 program :=
      loadImage_programImage program
    refine ⟨_, perform_reset_of_inRange (programImage_inRange hlen) s, fun k hk => ?inside, fun a ha hout => ?outside⟩
    case inside =>
      apply readByte_of_byte?
      simp [hmem, byte?_writes, hk]
    case outside => rw [hmem, byte?_writes, dif_neg (by omega), byte?_nil_of_le ha]

/-! ## The end of a run (R204) -/

/-- Settles O59: the open STEP executes the JP it fetches, whose target is the `PC` it started from. -/
theorem endedStateStays : Obligations.EndedStateStays := by
  rintro s ⟨hcause, hkey, raw, nnn, hfetch, hdecode, htarget⟩
  have hjp : classify raw = some (.jp nnn) := decodeWord_eq_ok_iff.1 hdecode
  obtain ⟨hnone, -⟩ | ⟨i, hi, hcycle⟩ := cycle_of_fetch hcause hkey hfetch
  · cases hnone.symm.trans hjp
  · cases hi.symm.trans hjp
    calc cycle s = .next (s.setPc (addrWord nnn)) := hcycle
      _ = .next s := by rw [htarget]; rfl

end Sys2Proof.Machine

end

section
/-! SUPPORT. The decoder and the encoder as inverses (spec/30_encoding.md R43, R64 to R66). One direction is the row of an
instruction's own word (`ownRow`); the other goes through the tests of fields: the fields a test compares and the operands it
builds with make up every bit of the word, so that the encoder lays the same word out again. -/

namespace Sys2Proof

/-! ## From the instruction to the word -/

/-- Bytes decode as the word the first two join to (R43, R60). -/
theorem decode_cons_cons_eq_ok_iff {hi lo : Byte} {rest : List Byte} {i : Instr} :
    decode (hi :: lo :: rest) = .ok (i, rest) ↔ decodeWord (wordOfBytes hi lo) = .ok i := by
  simp only [decode]
  cases decodeWord (wordOfBytes hi lo) <;> simp

/-- Settles O2: the instruction's own word decodes to it, and its two bytes join to that word. -/
theorem decodeOfEncode : Obligations.DecodeOfEncode := by
  intro i rest hwf
  have hword : decodeWord (encode i) = .ok i := decodeWord_encode i hwf
  exact ⟨hword, decode_cons_cons_eq_ok_iff.2 (by rwa [wordOfBytes_high_low])⟩

/-! ## From the word to the instruction -/

/-- The decoder answers what a test of fields that succeeds builds. -/
theorem classify_eq_some_iff_tests (raw : Word) (i : Instr) :
    classify raw = some i ↔ ∃ p ∈ fieldTests raw, p.1 = true ∧ p.2 = i :=
  (classify_eq_some_iff raw i).trans (exists_row_iff raw fun b j => b = true ∧ j = i)

/-- Where the test succeeds, what it builds is well-formed and has the word as its encoding. -/
def BuildsBack (raw : Word) (p : Bool × Instr) : Prop := p.1 = true → encode p.2 = raw ∧ p.2.wellFormed = true

section

variable {raw : Word} {o : Nibble} {i : Instr} (hwf : i.wellFormed = true)
include hwf

theorem BuildsBack.nnn (h : encode i = encNNN o (fieldNNN raw)) : BuildsBack raw (isOp raw o, i) := fun ht =>
  ⟨by rw [h, ← of_decide_eq_true ht, ← word_eq_encNNN], hwf⟩

theorem BuildsBack.xkk (h : encode i = encXKK o (fieldX raw) (fieldKK raw)) : BuildsBack raw (isOp raw o, i) := fun ht =>
  ⟨by rw [h, ← of_decide_eq_true ht, ← word_eq_encXKK], hwf⟩

theorem BuildsBack.xyn (h : encode i = encXYN o (fieldX raw) (fieldY raw) (fieldN raw)) :
    BuildsBack raw (isOp raw o, i) := fun ht =>
  ⟨by rw [h, ← of_decide_eq_true ht, ← word_eq_encXYN], hwf⟩

theorem BuildsBack.xy {m : Nibble} (h : encode i = encXYN o (fieldX raw) (fieldY raw) m) :
    BuildsBack raw (isOpN raw o m, i) := by
  intro ht
  obtain ⟨ho, hm⟩ := of_decide_eq_true ht
  exact ⟨by rw [h, ← ho, ← hm, ← word_eq_encXYN], hwf⟩

theorem BuildsBack.x {k : Byte} (h : encode i = encXKK o (fieldX raw) k) : BuildsBack raw (isOpKK raw o k, i) := by
  intro ht
  obtain ⟨ho, hk⟩ := of_decide_eq_true ht
  exact ⟨by rw [h, ← ho, ← hk, ← word_eq_encXKK], hwf⟩

end

/-- SYS: the two words the test leaves out are the two terms R65 excludes. -/
theorem buildsBack_sys (raw : Word) :
    BuildsBack raw (decide (fieldOp raw = 0 ∧ fieldNNN raw ≠ 0x0E0 ∧ fieldNNN raw ≠ 0x0EE), .sys (fieldNNN raw)) := by
  intro ht
  obtain ⟨ho, hcls, hret⟩ := of_decide_eq_true ht
  exact ⟨((eq_encNNN_iff raw 0 _).2 ⟨ho, rfl⟩).symm, Bool.and_eq_true_iff.2 ⟨bne_iff_ne.2 hcls, bne_iff_ne.2 hret⟩⟩

theorem buildsBack_testsLow (raw : Word) : (testsLow raw).Forall (BuildsBack raw) := by
  simp only [testsLow, List.Forall]
  exact ⟨buildsBack_sys raw, fun ht => ⟨((eq_cls_iff raw).2 (of_decide_eq_true ht)).symm, rfl⟩,
    fun ht => ⟨((eq_ret_iff raw).2 (of_decide_eq_true ht)).symm, rfl⟩, .nnn rfl rfl, .nnn rfl rfl, .xkk rfl rfl,
    .xkk rfl rfl, .xy rfl rfl, .xkk rfl rfl, .xkk rfl rfl⟩

theorem buildsBack_testsAlu (raw : Word) : (testsAlu raw).Forall (BuildsBack raw) := by
  simp only [testsAlu, List.Forall]
  exact ⟨.xy rfl rfl, .xy rfl rfl, .xy rfl rfl, .xy rfl rfl, .xy rfl rfl, .xy rfl rfl, .xy rfl rfl, .xy rfl rfl,
    .xy rfl rfl⟩

theorem buildsBack_testsHigh (raw : Word) : (testsHigh raw).Forall (BuildsBack raw) := by
  simp only [testsHigh, List.Forall]
  exact ⟨.xy rfl rfl, .nnn rfl rfl, .nnn rfl rfl, .xkk rfl rfl, .xyn rfl rfl, .x rfl rfl, .x rfl rfl, .x rfl rfl,
    .x rfl rfl, .x rfl rfl, .x rfl rfl, .x rfl rfl, .x rfl rfl, .x rfl rfl, .x rfl rfl, .x rfl rfl⟩

theorem buildsBack_fieldTests (raw : Word) : ∀ p ∈ fieldTests raw, BuildsBack raw p := by
  rw [← List.forall_iff_forall_mem, fieldTests, List.forall_append, List.forall_append]
  exact ⟨⟨buildsBack_testsLow raw, buildsBack_testsAlu raw⟩, buildsBack_testsHigh raw⟩

/-- Settles O3: a word that decodes passes a test of fields, and every test builds back. -/
theorem encodeOfDecode : Obligations.EncodeOfDecode := by
  intro raw i h
  obtain ⟨p, hmem, hpass, rfl⟩ := (classify_eq_some_iff_tests raw i).1 (decodeWord_eq_ok_iff.1 h)
  exact buildsBack_fieldTests raw p hmem hpass

/-- The table's word of an instruction decodes as the word it is. -/
theorem decodeTableWord_eq_some_iff {nbits w : Nat} {i : Instr} :
    decodeTableWord nbits w = some i ↔ classify (tableWord nbits w) = some i := by
  simp only [decodeTableWord, decode, wordOfBytes_high_low, ← decodeWord_eq_ok_iff]
  cases decodeWord (tableWord nbits w) <;> simp

end Sys2Proof

end

section
/-! SUPPORT. The step of the machine (spec/00_scope.md R5, R6): which event it performs, a placed word as the next instruction
(spec/70_reset_and_hazards.md R202), which steps answer a next state, and the first fault (spec/60_exceptions.md R182). -/

namespace Sys2Proof.Machine

/-! ## Which event a step performs (R5, R6) -/

theorem step_of_no_event {s : State} (h : s.inbox = []) : step s = cycle s := by
  simp only [step, nextEvent, h]

theorem step_of_event {s : State} {e : Event} {rest : List Event} (h : s.inbox = e :: rest) :
    step s = perform e { s with inbox := rest } := by
  simp only [step, nextEvent, h]

/-- STEP(r) is one cycle, after which the port is at rest (R71). -/
theorem perform_step_of_cycle {r : Byte} {s t : State} (h : cycle { s with evRand := some r } = .next t) :
    perform (.step r) s = .next t.dropRand := by
  rw [perform, stepWith, h, onNext]

/-- Settles O18, event by event. -/
theorem stepPerformsOldestEvent : Obligations.StepPerformsOldestEvent := fun _ _ =>
  ⟨step_of_no_event, fun _ => step_of_event, step_of_event, fun _ => step_of_event, fun _ => step_of_event,
    fun _ _ h hc => (step_of_event h).trans (perform_step_of_cycle hc)⟩

/-- A STEP that is not gated executes the instruction it fetches. -/
theorem cycle_of_classify {s : State} {raw : Word} {i : Instr} (hcause : s.faultCause = .noFault)
    (hkey : s.haltedForKey = false) (hfetch : s.fetch = some raw) (hi : classify raw = some i) : cycle s = exec i s := by
  obtain ⟨-, hopen⟩ := stepCycle s
  obtain ⟨-, hword⟩ := hopen hcause hkey
  obtain ⟨-, hkind⟩ := hword raw hfetch
  exact hkind i hi

/-- Settles O7: the fetch joins the two bytes that decode to the instruction. -/
theorem stepRunsDecodedInstruction : Obligations.StepRunsDecodedInstruction := by
  intro s i hinbox hcause hkey hpc hdecode
  have hfetch : s.fetch = some (wordOfBytes (s.readByte s.pc.toNat) (s.readByte (s.pc.toNat + 1))) := by
    rw [fetch_eq, if_pos hpc]
  have hi := decodeWord_eq_ok_iff.1 (decode_cons_cons_eq_ok_iff.1 hdecode)
  exact (step_of_no_event hinbox).trans (cycle_of_classify hcause hkey hfetch hi)

/-! ## A placed word (R202) -/

theorem readyToFetch_pc_of_le {s : State} (h : s.pc.toNat + 2 ≤ 4096) : s.readyToFetch.pc = s.pc := if_pos h

theorem readyToFetch_pc_inRange (s : State) : s.readyToFetch.pc.toNat + 2 ≤ 4096 := by
  by_cases h : s.pc.toNat + 2 ≤ 4096
  · rwa [readyToFetch_pc_of_le h]
  · rw [show s.readyToFetch.pc = Config.progBase from if_neg h]
    decide

/-- Making ready where a fetch is in range opens the gates and empties the inbox. -/
theorem readyToFetch_frame {s : State} (h : s.pc.toNat + 2 ≤ 4096) :
    OnlyChanges (· ∈ [Part.fault, .halted, .inbox]) s s.readyToFetch := by
  intro p hp
  cases p with
  | pc => exact readyToFetch_pc_of_le h
  | fault | halted | inbox => simp at hp
  | _ => rfl

/-- A word stored at `PC` is the one fetched there. -/
theorem fetch_storeAtPc {s : State} (h : s.pc.toNat + 2 ≤ 4096) (raw : Word) : (s.storeAtPc raw).fetch = some raw := by
  have hpc : (s.storeAtPc raw).pc = s.pc := rfl
  rw [fetch_eq, hpc, if_pos h]
  simp [State.storeAtPc, readByte_writes, wordOfBytes_high_low]

/-- The frame of the store of a word at `PC`: its two bytes. -/
theorem storeAtPc_frame (s : State) (raw : Word) :
    OnlyChanges (· ∈ [Part.mem s.pc.toNat, .mem (s.pc.toNat + 1)]) s (s.storeAtPc raw) := by
  refine (writes_frame s s.pc.toNat [highByte raw, lowByte raw]).mono ?_
  rintro p ⟨a, rfl, hlow, hhigh⟩
  simp only [List.length_cons, List.length_nil] at hhigh
  have ha : a = s.pc.toNat ∨ a = s.pc.toNat + 1 := by omega
  simpa using ha

/-- Settles O9: the placed state is open and fetches the placed word; the frame is that of making ready, then storing. -/
theorem placedWordRuns : Obligations.PlacedWordRuns := by
  refine fun s nbits w => ⟨fun i hi => ?runs, fun hpc => ⟨readyToFetch_pc_of_le hpc, ?frame⟩⟩
  case runs =>
    have hfetch := fetch_storeAtPc (readyToFetch_pc_inRange s) (tableWord nbits w)
    exact (step_of_no_event rfl).trans (cycle_of_classify rfl rfl hfetch (decodeTableWord_eq_some_iff.1 hi))
  case frame =>
    have hstore := storeAtPc_frame s.readyToFetch (tableWord nbits w)
    rw [readyToFetch_pc_of_le hpc] at hstore
    exact ((readyToFetch_frame hpc).trans hstore).mono (by simp only [List.mem_cons, List.not_mem_nil, or_false]; tauto)

/-! ## Which steps answer -/

/-- Settles O10: a fault that is taken is a next state as well. -/
theorem everyInstructionAnswers : Obligations.EveryInstructionAnswers := by
  intro i s
  obtain ⟨c, -, h⟩ | ⟨t, h, -⟩ := exec_cases i s
  · exact ⟨_, h⟩
  · exact ⟨t, h⟩

theorem cycle_answers (s : State) : ∃ t, cycle s = .next t := by
  obtain ⟨-, h⟩ | ⟨-, -, h⟩ | ⟨raw, -, -, -, ⟨-, h⟩ | ⟨i, -, h⟩⟩ := cycle_cases s
  · exact ⟨_, h⟩
  · exact ⟨_, h⟩
  · obtain ⟨t, ht, -⟩ := unknownWord_effect s
    exact ⟨t, h.trans ht⟩
  · obtain ⟨t, ht⟩ := everyInstructionAnswers i s
    exact ⟨t, h.trans ht⟩

/-- Every event answers but a RESET whose image is out of range. -/
theorem perform_answers {e : Event} (h : ∀ image, e = .reset image → imageInRange image = true) (s : State) :
    ∃ t, perform e s = .next t := by
  cases e with
  | reset image => exact ⟨_, if_pos (h image rfl)⟩
  | step r =>
    obtain ⟨t, ht⟩ := cycle_answers { s with evRand := some r }
    exact ⟨_, perform_step_of_cycle ht⟩
  | tick => exact ⟨_, rfl⟩
  | keyPress k => exact ⟨_, rfl⟩
  | keyRelease k => exact ⟨_, rfl⟩

/-- The oldest event is a RESET whose image leaves the range of `MEM_INIT` (U9). -/
def BadImageNext (s : State) : Prop :=
  ∃ image rest, s.inbox = .reset image :: rest ∧ ∃ c ∈ image, c.1 < 0x050 ∨ 4096 ≤ c.1

theorem imageInRange_eq_false_iff (image : List Host.Cell) :
    imageInRange image = false ↔ ∃ c ∈ image, c.1 < 0x050 ∨ 4096 ≤ c.1 := by
  rw [← Bool.not_eq_true, imageInRange_iff]
  push Not
  simp only [imp_iff_not_or, not_le]

theorem step_refused_of_badImageNext {s : State} (h : BadImageNext s) : step s = .refused .imageOutsideMemory := by
  obtain ⟨image, rest, hinbox, hbad⟩ := h
  rw [step_of_event hinbox, perform, hostReset, (imageInRange_eq_false_iff image).2 hbad]
  rfl

theorem step_answers_of_not_badImageNext {s : State} (h : ¬ BadImageNext s) : ∃ t, step s = .next t := by
  cases hinbox : s.inbox with
  | nil => exact step_of_no_event hinbox ▸ cycle_answers s
  | cons e rest =>
    rw [step_of_event hinbox]
    refine perform_answers (fun image he => ?_) _
    by_contra hbad
    exact h ⟨image, rest, he ▸ hinbox, (imageInRange_eq_false_iff image).1 (Bool.not_eq_true _ ▸ hbad)⟩

/-- Settles O19: a bad image is refused, and every other step answers. -/
theorem stepStopsOnlyOnBadImage : Obligations.StepStopsOnlyOnBadImage := by
  intro s
  by_cases hbad : BadImageNext s
  · have hstop := step_refused_of_badImageNext hbad
    exact ⟨.inr hstop, iff_of_true hstop hbad⟩
  · obtain ⟨t, ht⟩ := step_answers_of_not_badImageNext hbad
    exact ⟨.inl ⟨t, ht⟩, iff_of_false (by rw [ht]; nofun) hbad⟩

/-! ## The first fault (R20, R182) -/

/-- What RESET can answer. -/
theorem perform_reset_eq_next {image : List Host.Cell} {s t : State} :
    perform (.reset image) s = .next t ↔ imageInRange image = true ∧ t = afterReset image s := by
  simp only [perform, hostReset]
  split <;> simp [*, eq_comm]

/-- Settles O51: a faulted STEP is gated, TICK and the keys write neither the latch nor `PC`, and RESET clears the latch. -/
theorem firstFaultStays : Obligations.FirstFaultStays := by
  intro e s t hfault hp
  refine ⟨fun hreset => ?stays, ?clears⟩
  case clears =>
    rintro image rfl
    obtain ⟨-, rfl⟩ := perform_reset_eq_next.1 hp
    rfl
  case stays =>
    cases e with
    | reset image => exact absurd rfl (hreset image)
    | step r =>
      have hgated : cycle { s with evRand := some r } = .next { s with evRand := some r } := cycle_of_gated (.inl hfault)
      cases (perform_step_of_cycle hgated).symm.trans hp
      exact ⟨rfl, rfl⟩
    | tick =>
      cases hp
      exact ⟨rfl, rfl⟩
    | keyPress k =>
      cases hp
      unfold keyPress
      split <;> exact ⟨rfl, rfl⟩
    | keyRelease k =>
      cases hp
      exact ⟨rfl, rfl⟩

end Sys2Proof.Machine

end

section
/-! SUPPORT. A store and its load (spec/20_memory.md R55), and the canonical form of memory: the two instructions that store do
so in range, no other instruction or event but RESET touches memory, and RESET loads an image in range. -/

namespace Sys2Proof.Machine

/-! ## Store and load (R55) -/

/-- A load of what was just stored. -/
theorem readBytes_writes (s : State) (a : Nat) (bytes : List Byte) :
    ({ s with mem := s.mem.writes a bytes } : State).readBytes a bytes.length = bytes := by
  refine List.ext_getElem (readBytes_length _ _ _) fun k _ hk => ?_
  simp [readByte_writes, hk]

/-- Settles O40: load and store have one range check, in which an empty access passes. -/
theorem storeThenRead : Obligations.StoreThenRead := by
  refine fun s a bytes => ⟨fun h => ?inRange, fun hne hgt => ?outOfRange⟩
  case inRange =>
    have hread : bytes.length = 0 ∨ a + bytes.length ≤ 4096 := h.imp_left List.length_eq_zero_iff.2
    exact ⟨_, memWrite_eq_some.2 ⟨h, rfl⟩, memRead_eq_some.2 ⟨hread, (readBytes_writes s a bytes).symm⟩,
      writes_frame s a bytes⟩
  case outOfRange =>
    exact ⟨memWrite_eq_none.2 ⟨hne, hgt⟩, memRead_eq_none.2 ⟨mt List.length_eq_zero_iff.1 hne, hgt⟩⟩

/-! ## The canonical form of memory -/

theorem MemCanonical.congr {s t : State} (h : MemCanonical s) (hm : t.mem = s.mem) : MemCanonical t := by
  rwa [MemCanonical, hm]

@[simp] theorem skipIf_mem (s : State) (c : Bool) : (s.skipIf c).mem = s.mem := by
  cases c <;> rfl

@[simp] theorem useRandom_mem (s : State) : s.useRandom.mem = s.mem := by
  unfold State.useRandom
  split <;> rfl

@[simp] theorem setRegs_mem (s : State) (first : Nat) (bytes : List Byte) : (s.setRegs first bytes).mem = s.mem := by
  rw [setRegs_eq]

/-- Only LD B and the block store write memory (R10). -/
theorem exec_keeps_mem {i : Instr} (hb : ∀ x, i ≠ .ldB x) (hstore : ∀ x, i ≠ .ldStore x) (s : State) :
    ∃ t, exec i s = .next t ∧ t.mem = s.mem := by
  cases i with
  | ldB x => exact absurd rfl (hb x)
  | ldStore x => exact absurd rfl (hstore x)
  | ret =>
    obtain ⟨hzero, -⟩ | ⟨_, _, _, hpop⟩ := pop?_cases s
    · exact ⟨_, exec_ret_of_sp_eq_zero hzero, rfl⟩
    · exact ⟨_, exec_ret_of_pop hpop, rfl⟩
  | call nnn =>
    obtain ⟨hfull, -⟩ | ⟨_, pushed, hpush, rfl⟩ := push?_cases s (s.pc + 2)
    · exact ⟨_, exec_call_of_sp_eq_16 nnn hfull, rfl⟩
    · exact ⟨_, exec_call_of_push nnn hpush, rfl⟩
  | seByte x kk => exact ⟨_, rfl, skipIf_mem s _⟩
  | sneByte x kk => exact ⟨_, rfl, skipIf_mem s _⟩
  | seReg x y => exact ⟨_, rfl, skipIf_mem s _⟩
  | sneReg x y => exact ⟨_, rfl, skipIf_mem s _⟩
  | skp x =>
    obtain ⟨hgt, -⟩ | ⟨k, -, hk⟩ := keyOperand_cases s x
    · exact ⟨_, exec_skp_of_gt hgt, rfl⟩
    · exact ⟨_, exec_skp_of_key hk.symm, skipIf_mem s _⟩
  | sknp x =>
    obtain ⟨hgt, -⟩ | ⟨k, -, hk⟩ := keyOperand_cases s x
    · exact ⟨_, exec_sknp_of_gt hgt, rfl⟩
    · exact ⟨_, exec_sknp_of_key hk.symm, skipIf_mem s _⟩
  | drw x y n =>
    obtain ⟨hn, hgt, -⟩ | ⟨hle, -⟩ := spriteOperand_cases s n
    · exact ⟨_, exec_drw_of_gt x y hn hgt, rfl⟩
    · exact ⟨_, exec_drw_of_le x y hle, rfl⟩
  | ldLoad x =>
    obtain ⟨hgt, -⟩ | ⟨hle, -⟩ := blockOperand_cases s x
    · exact ⟨_, exec_ldLoad_of_gt hgt, rfl⟩
    · exact ⟨_, exec_ldLoad_of_le hle, setRegs_mem s _ _⟩
  | rnd x kk => exact ⟨_, rfl, useRandom_mem s⟩
  | _ => exact ⟨_, rfl, rfl⟩

theorem mem_of_exec {i : Instr} {s t : State} (h : exec i s = .next t) (hb : ∀ x, i ≠ .ldB x)
    (hstore : ∀ x, i ≠ .ldStore x) : t.mem = s.mem := by
  obtain ⟨u, hu, hmem⟩ := exec_keeps_mem hb hstore s
  cases hu.symm.trans h
  exact hmem

/-- The two stores are range-checked before they write: LD B against the end of memory, the block store against the register
file. -/
theorem MemCanonical.exec {i : Instr} {s t : State} (h : MemCanonical s) (he : exec i s = .next t) : MemCanonical t := by
  cases i with
  | ldB x =>
    obtain hgt | hle := Nat.lt_or_ge 4096 (s.i.toNat + 3)
    · cases (exec_ldB_of_gt x hgt).symm.trans he
      exact h
    · cases (exec_ldB_of_le x hle).symm.trans he
      exact wf_writes h (decimalDigits (s.getV x)) hle
  | ldStore x =>
    obtain ⟨hgt, -⟩ | ⟨hle, -⟩ := blockOperand_cases s x
    · cases (exec_ldStore_of_gt hgt).symm.trans he
      exact h
    · cases (exec_ldStore_of_le hle).symm.trans he
      exact wf_writes h (s.blockRegs s.i.toNat (x.toNat + 1)) (by rw [blockRegs_length, Config.memSize]; omega)
  | _ => exact h.congr (mem_of_exec he nofun nofun)

theorem unknownWord_mem {s t : State} (h : unknownWord s = .next t) : t.mem = s.mem := by
  cases hp : s.unknownPolicy with
  | halt => cases (unknownWord_of_halt hp).symm.trans h; rfl
  | skip => cases (unknownWord_of_skip hp).symm.trans h; rfl

/-- STEP keeps the canonical form. -/
theorem MemCanonical.cycle {s t : State} (h : MemCanonical s) (hc : cycle s = .next t) : MemCanonical t := by
  obtain ⟨-, he⟩ | ⟨-, -, he⟩ | ⟨raw, -, -, -, ⟨-, he⟩ | ⟨i, -, he⟩⟩ := cycle_cases s
  · cases he.symm.trans hc
    exact h
  · cases he.symm.trans hc
    exact h
  · exact h.congr (unknownWord_mem (he.symm.trans hc))
  · exact h.exec (he.symm.trans hc)

/-- Every event keeps the canonical form; RESET establishes it. -/
theorem MemCanonical.perform {e : Event} {s t : State} (h : MemCanonical s) (hp : perform e s = .next t) :
    MemCanonical t := by
  cases e with
  | reset image =>
    obtain ⟨hrange, rfl⟩ := perform_reset_eq_next.1 hp
    exact wf_loadImage hrange
  | step r =>
    obtain ⟨u, hu, rfl⟩ := onNext_eq_next hp
    have hr : MemCanonical { s with evRand := some r } := h
    exact (hr.cycle hu).congr rfl
  | tick =>
    cases hp
    exact h
  | keyPress k =>
    cases hp
    unfold keyPress
    split <;> exact h
  | keyRelease k =>
    cases hp
    exact h

/-- Settles O53: a step is one STEP or the oldest event, and each keeps the canonical form. -/
theorem memCanonicalKept : Obligations.MemCanonicalKept := by
  intro s t h hstep
  cases hinbox : s.inbox with
  | nil => exact h.cycle ((step_of_no_event hinbox).symm.trans hstep)
  | cons e rest =>
    have hs : MemCanonical { s with inbox := rest } := h
    exact hs.perform ((step_of_event hinbox).symm.trans hstep)

/-- Settles O54: `PC` is `PROG_BASE`, no stack slot is used, and memory lists nothing. -/
theorem invariantsAtReset : Obligations.InvariantsAtReset :=
  ⟨⟨(by decide : Config.progBase.toNat ≤ 0x10FE), fun _ hk => absurd hk (Nat.not_lt_zero _)⟩, .nil, nofun⟩

end Sys2Proof.Machine

end
